-- ==== Sys2Proof/Word.lean ====
section
/-! DEFINITION. The words of LPT and the two records every rule speaks of (00_scope.md R8, R10, R12).
The widths are the fixed parameters of R8: DUR_W = 15, BITS_PER_BYTE = 8, ENTRY_W = SIZE_W = ADDR_W = 32, PID_W = 8. -/

namespace Sys2Proof

/-- A byte of host memory, and the 8-bit header fields CH and PID (30_encoding.md R61). -/
abbrev Byte := BitVec 8

/-- A 32-bit word: a command word, a response word, an entry word, an address or a count (R60, R67). -/
abbrev Word := BitVec 32

/-- A tick count, 0..32767 (00_scope.md R12). -/
abbrev Tick := BitVec 15

/-- The number of bytes of host memory, 2^ADDR_W (20_memory.md R40). -/
abbrev memorySize : Nat := 4294967296

/-- The five tick counts of a channel or of a table row, in the field order of 00_scope.md R12. -/
structure TimingProfile where
  lowOn   : Tick
  lowOff  : Tick
  highOn  : Tick
  highOff : Tick
  reset   : Tick
deriving DecidableEq, Repr

/-- One two-phase pulse (00_scope.md R12). -/
structure Entry where
  dur0   : Tick
  level0 : Bool
  dur1   : Tick
  level1 : Bool
deriving DecidableEq, Repr

end Sys2Proof
end

