-- ==== Sys2Proof/Syntax.lean ====
section
/-! DEFINITION. The commands of LPT-1: one constructor for each row of spec/opcode_table.json. Operands have exactly
the widths of the fields that carry them (30_encoding.md R61, R64, R67), so no operand outside its field can be written. -/

namespace Sys2Proof

/-- A decoded command. -/
inductive Instr where
  /-- RESOLVE: protocol identifier, the manual flag, the manual profile (40_resolver.md R95). -/
  | resolve (pid : Byte) (man : Bool) (manual : TimingProfile)
  /-- BIND: channel, the profile to bind (41_context.md R110). -/
  | bind (ch : Byte) (prof : TimingProfile)
  /-- UNBIND: channel (R111). -/
  | unbind (ch : Byte)
  /-- READPROF: channel (R112). -/
  | readprof (ch : Byte)
  /-- TRANSLATE: channel, source address, source bytes remaining, entry buffer address, entry slots offered
  (42_translate.md R133). -/
  | translate (ch : Byte) (src len dst cap : Word)
deriving DecidableEq, Repr

end Sys2Proof
end

