-- ==== Sys2Proof/Decode.lean ====
section
/-! DEFINITION. From command words to commands and back (30_encoding.md R60 to R73): the fields of the header word, the
PROF packing, the opcode map, the decoder, total on any list of words and rejecting by name, and then the encoder, written
from the same tables. -/

namespace Sys2Proof

/-! ### Fields of the header word (R61) -/

/-- `HDR[7:0]`, OPC. -/
def hdrOpc (h : Word) : Byte := h.extractLsb' 0 8

/-- `HDR[15:8]`, CH. -/
def hdrCh (h : Word) : Byte := h.extractLsb' 8 8

/-- `HDR[23:16]`, PID. -/
def hdrPid (h : Word) : Byte := h.extractLsb' 16 8

/-- `HDR[24]`, MAN. -/
def hdrMan (h : Word) : Bool := h.getLsbD 24

/-- `HDR[31:25]`, RSV. -/
def hdrRsv (h : Word) : BitVec 7 := h.extractLsb' 25 7

/-- The header word of given fields, RSV being 0. -/
def hdrWord (opc ch pid : Byte) (man : Bool) : Word :=
  opc.setWidth 32 ||| (ch.setWidth 32 <<< 8) ||| (pid.setWidth 32 <<< 16) ||| ((BitVec.ofBool man).setWidth 32 <<< 24)

/-! ### The PROF format (R64) -/

/-- P0: `low_off` in [30:16], `low_on` in [14:0]. -/
def profP0 (p : TimingProfile) : Word := p.lowOn.setWidth 32 ||| (p.lowOff.setWidth 32 <<< 16)

/-- P1: `high_off` in [30:16], `high_on` in [14:0]. -/
def profP1 (p : TimingProfile) : Word := p.highOn.setWidth 32 ||| (p.highOff.setWidth 32 <<< 16)

/-- P2: `reset` in [14:0]. -/
def profP2 (p : TimingProfile) : Word := p.reset.setWidth 32

/-- The three PROF words of a profile, in order. -/
def profWords (p : TimingProfile) : List Word := [profP0 p, profP1 p, profP2 p]

/-- The must-be-0 bits of three PROF words are 0 (R64, R71). -/
def profLegal (p0 p1 p2 : Word) : Bool :=
  !p0.getLsbD 15 && !p0.getLsbD 31 && !p1.getLsbD 15 && !p1.getLsbD 31 && p2.extractLsb' 15 17 == 0#17

/-- The profile three PROF words carry (R64). -/
def profOfWords (p0 p1 p2 : Word) : TimingProfile :=
  { lowOn   := p0.extractLsb' 0 15
    lowOff  := p0.extractLsb' 16 15
    highOn  := p1.extractLsb' 0 15
    highOff := p1.extractLsb' 16 15
    reset   := p2.extractLsb' 0 15 }

/-! ### The opcode map (R68) and the command lengths (R65, R73) -/

/-- The five opcodes. -/
inductive Opcode where
  | resolve | bind | unbind | readprof | translate
deriving DecidableEq, Repr

/-- The opcode of an OPC field; 0x00 and 0x06 to 0xFF are reserved (R68, R70). -/
def opcodeOf (b : Byte) : Option Opcode :=
  if b = 0x01#8 then some .resolve
  else if b = 0x02#8 then some .bind
  else if b = 0x03#8 then some .unbind
  else if b = 0x04#8 then some .readprof
  else if b = 0x05#8 then some .translate
  else none

/-- The OPC field of an opcode (R68). -/
def opcodeByte : Opcode → Byte
  | .resolve => 0x01#8
  | .bind => 0x02#8
  | .unbind => 0x03#8
  | .readprof => 0x04#8
  | .translate => 0x05#8

/-- How many operand words follow the header (R65). -/
def operandWords : Opcode → Nat
  | .resolve => 3
  | .bind => 3
  | .unbind => 0
  | .readprof => 0
  | .translate => 4

/-- The header's must-be-0 fields are 0: RSV always, CH for RESOLVE, MAN and PID for the others (R69). -/
def hdrLegal (o : Opcode) (h : Word) : Bool :=
  hdrRsv h == 0#7 &&
    match o with
    | .resolve => hdrCh h == 0#8
    | .bind => h.extractLsb' 16 9 == 0#9
    | .unbind => h.extractLsb' 16 9 == 0#9
    | .readprof => h.extractLsb' 16 9 == 0#9
    | .translate => h.extractLsb' 16 9 == 0#9

/-! ### The decoder (R69) -/

/-- Why a frame of words is no command. -/
inductive DecodeReject where
  /-- The refusal IllegalCommand of R165, with the header word: a reserved opcode or a 1 in a must-be-0 bit. -/
  | illegalCommand (h : Word)
  /-- The frame is no whole command: empty, or a legal header with too few or too many operand words. The host must
  present whole commands (60_exceptions.md R170). -/
  | notWhole
deriving DecidableEq, Repr

/-- The operand words of a command whose header is legal. -/
def decodeOperands (o : Opcode) (h : Word) (ops : List Word) : Except DecodeReject Instr :=
  match o with
  | .resolve =>
    match ops with
    | [p0, p1, p2] =>
      if profLegal p0 p1 p2 then .ok (.resolve (hdrPid h) (hdrMan h) (profOfWords p0 p1 p2))
      else .error (.illegalCommand h)
    | _ => .error .notWhole
  | .bind =>
    match ops with
    | [p0, p1, p2] =>
      if profLegal p0 p1 p2 then .ok (.bind (hdrCh h) (profOfWords p0 p1 p2))
      else .error (.illegalCommand h)
    | _ => .error .notWhole
  | .unbind =>
    match ops with
    | [] => .ok (.unbind (hdrCh h))
    | _ => .error .notWhole
  | .readprof =>
    match ops with
    | [] => .ok (.readprof (hdrCh h))
    | _ => .error .notWhole
  | .translate =>
    match ops with
    | [src, len, dst, cap] => .ok (.translate (hdrCh h) src len dst cap)
    | _ => .error .notWhole

/-- The command a frame of words is, the header first; total, with the checks in the order of R69. -/
def decode (ws : List Word) : Except DecodeReject Instr :=
  match ws with
  | [] => .error .notWhole
  | h :: ops =>
    match opcodeOf (hdrOpc h) with
    | none => .error (.illegalCommand h)
    | some o => if hdrLegal o h then decodeOperands o h ops else .error (.illegalCommand h)

/-! ### The encoder (R61, R64, R65) -/

/-- The words of a command: the header, then its operand words in the order of R65. -/
def encode : Instr → List Word
  | .resolve pid man m => hdrWord 0x01#8 0#8 pid man :: profWords m
  | .bind ch p => hdrWord 0x02#8 ch 0#8 false :: profWords p
  | .unbind ch => [hdrWord 0x03#8 ch 0#8 false]
  | .readprof ch => [hdrWord 0x04#8 ch 0#8 false]
  | .translate ch src len dst cap => [hdrWord 0x05#8 ch 0#8 false, src, len, dst, cap]

/-- How many words a command has (R65). -/
def wordCount : Instr → Nat
  | .resolve _ _ _ => 4
  | .bind _ _ => 4
  | .unbind _ => 1
  | .readprof _ => 1
  | .translate _ _ _ _ _ => 5

/-! ### The opcode table, as spec/opcode_table.json prints it -/

/-- A row of the opcode table: a header word h is of this row when `h &&& mask = match`. -/
structure OpcodeRow where
  mnemonic : String
  value    : Word
  mask     : Word
  words    : Nat
deriving DecidableEq, Repr

/-- The five rows of spec/opcode_table.json (its match, mask and length_words). -/
def opcodeTable : List OpcodeRow :=
  [ { mnemonic := "RESOLVE",   value := 0x00000001#32, mask := 0xFE00FFFF#32, words := 4 },
    { mnemonic := "BIND",      value := 0x00000002#32, mask := 0xFFFF00FF#32, words := 4 },
    { mnemonic := "UNBIND",    value := 0x00000003#32, mask := 0xFFFF00FF#32, words := 1 },
    { mnemonic := "READPROF",  value := 0x00000004#32, mask := 0xFFFF00FF#32, words := 1 },
    { mnemonic := "TRANSLATE", value := 0x00000005#32, mask := 0xFFFF00FF#32, words := 5 } ]

/-- A header word is of a row of the opcode table. -/
def OpcodeRow.matches (r : OpcodeRow) (h : Word) : Bool := h &&& r.mask == r.value

/-! ### Words numbered as the opcode table numbers them -/

/-- The k-th 32-bit word of a number whose bit 0 is the least significant bit of the first word. -/
def wordAt (w k : Nat) : Word := BitVec.ofNat 32 (w / 2 ^ (32 * k))

/-- The words of the command whose low nbits bits are w's and whose other bits are 0: the header, and as many operand
words as its opcode takes (none for a reserved opcode). A frame on the command port is a list of whole words, so no
byte order enters. -/
def tableWords (nbits w : Nat) : List Word :=
  let v := w % 2 ^ nbits
  let h := wordAt v 0
  match opcodeOf (hdrOpc h) with
  | none => [h]
  | some o => h :: (List.range (operandWords o)).map fun k => wordAt v (k + 1)

/-- The command the decoder reads from a command whose bits are w. -/
def decodeTableWord (nbits w : Nat) : Option Instr :=
  match decode (tableWords nbits w) with
  | .ok i => some i
  | .error _ => none

end Sys2Proof
end

