-- ==== Sys2Proof/Config.lean ====
section
/-! DEFINITION. The OPEN implementation parameters (00_scope.md R8, 10_state.md R27, R28) and the reference set of
40_resolver.md R93. A statement of this package holds for every well-formed set, not for the reference set alone.
LPT leaves no instruction's result undefined, so there is no free value here. -/

namespace Sys2Proof

/-- A row of PROFILE_TABLE: a protocol identifier, four pulse durations in nanoseconds and the reset time in
microseconds (40_resolver.md R92). The numbers are unbounded; R9's checks bound them. -/
structure TableRow where
  key     : Nat
  t0hNs   : Nat
  t0lNs   : Nat
  t1hNs   : Nat
  t1lNs   : Nat
  resetUs : Nat
deriving DecidableEq, Repr

/-- A parameter set, well-formed or not: NUM_CHANNELS, SRC_CLK_HZ, CLK_DIV, PROFILE_TABLE (R8). -/
structure Params where
  numChannels : Nat
  srcClkHz    : Nat
  clkDiv      : Nat
  table       : List TableRow
deriving DecidableEq, Repr

/-- NUM_PROTOCOLS, the number of rows of PROFILE_TABLE (R8). -/
def Params.numProtocols (p : Params) : Nat := p.table.length

/-- Row 0 of the reference table, which the spec labels REF-A (R93). -/
def refRowA : TableRow :=
  { key := 0, t0hNs := 350, t0lNs := 800, t1hNs := 700, t1lNs := 600, resetUs := 50 }

/-- Row 1 of the reference table, which the spec labels REF-B (R93). -/
def refRowB : TableRow :=
  { key := 1, t0hNs := 300, t0lNs := 900, t1hNs := 600, t1lNs := 600, resetUs := 80 }

/-- The reference configuration of R93: values for test vectors, not claimed to be the repository's. -/
def Params.reference : Params :=
  { numChannels := 8, srcClkHz := 80000000, clkDiv := 2, table := [refRowA, refRowB] }

end Sys2Proof
end

