-- ==== Sys2Proof/Machine/Ticks.lean ====
section
/-! DEFINITION. The conversion of table durations to tick counts (40_resolver.md R90, R91): exact, in unbounded
integers, rounding up, no floating point. -/

namespace Sys2Proof

/-- `ceil_div(a, b)` of 00_scope.md R10, for b at least 1. -/
def ceilDiv (a b : Nat) : Nat := (a + b - 1) / b

/-- `ticks_ns(t)` (R91). -/
def Params.ticksNs (p : Params) (t : Nat) : Nat := ceilDiv (t * p.srcClkHz) (p.clkDiv * 1000000000)

/-- `ticks_us(t)` (R91). -/
def Params.ticksUs (p : Params) (t : Nat) : Nat := ceilDiv (t * p.srcClkHz) (p.clkDiv * 1000000)

/-- The five tick counts of a table row before they are narrowed to 15 bits, in profile order (R92). -/
def Params.rowTicks (p : Params) (r : TableRow) : List Nat :=
  [p.ticksNs r.t0hNs, p.ticksNs r.t0lNs, p.ticksNs r.t1hNs, p.ticksNs r.t1lNs, p.ticksUs r.resetUs]

end Sys2Proof
end

