-- ==== Sys2Proof/WellFormed.lean ====
section
/-! DEFINITION. What must hold of a parameter set before a model is built (00_scope.md R8, R9), one check each, and the
built parameter set. Commands need no check of their own: every term of Instr is well-formed, because its operand types
are exactly as wide as the fields of the words (30_encoding.md R61, R64, R67); what makes WORDS ill-formed is in Decode.lean. -/

namespace Sys2Proof

/-- NUM_CHANNELS lies in 1..256 (R8, R9). -/
def Params.channelsOk (p : Params) : Bool := decide (1 ≤ p.numChannels) && decide (p.numChannels ≤ 256)

/-- SRC_CLK_HZ is at least 1 (R9). -/
def Params.clockOk (p : Params) : Bool := decide (1 ≤ p.srcClkHz)

/-- CLK_DIV is at least 1 (R9). -/
def Params.dividerOk (p : Params) : Bool := decide (1 ≤ p.clkDiv)

/-- NUM_PROTOCOLS is at least 1 (R9). -/
def Params.tableOk (p : Params) : Bool := decide (1 ≤ p.numProtocols)

/-- Every row key is below 2^PID_W (R9). -/
def Params.keysOk (p : Params) : Bool := p.table.all fun r => decide (r.key < 256)

/-- Every tick count of the table fits 15 bits (R9). -/
def Params.ticksOk (p : Params) : Bool :=
  p.table.all fun r => (p.rowTicks r).all fun t => decide (t ≤ 32767)

/-- The conditions of R9 together. -/
def Params.wellFormed (p : Params) : Bool :=
  p.channelsOk && p.clockOk && p.dividerOk && p.tableOk && p.keysOk && p.ticksOk

/-- A built parameter set: an ill-formed one cannot be built (R9). -/
structure Config where
  params : Params
  ok : params.wellFormed = true
deriving DecidableEq, Repr

/-- The reference configuration, built (40_resolver.md R93). -/
def Config.reference : Config := { params := Params.reference, ok := by decide }

end Sys2Proof
end

