-- ==== Sys2Proof/Machine/State.lean ====
section
/-! DEFINITION. The state of LPT and of what its commands reach (10_state.md R20 to R31; 20_memory.md R40; 60_exceptions.md
R160 to R170), the ways a step can stop, and the state after reset. -/

namespace Sys2Proof.Machine

/-- A context slot (R21): while `bound` is false the profile is unobservable (R23). -/
structure Slot where
  bound   : Bool
  profile : TimingProfile
deriving DecidableEq, Repr

/-- The transmission tracker of a channel (R30). -/
inductive Tx where
  | idle
  | active (base len : Word)
deriving DecidableEq, Repr

/-- The model faults of 60_exceptions.md R164, with the information each records. A command that raises one has no effect
and no response, and the run goes on (R168, R169). -/
inductive ModelFault where
  /-- TRANSLATE: the source or the entry range passes 2^32 (20_memory.md R46). -/
  | addressRange (src dst : Word)
  /-- TRANSLATE: dst is no multiple of 4 (R45). -/
  | misaligned (dst : Word)
  /-- TRANSLATE: the source and entry ranges overlap (R47). -/
  | overlap (src dst : Word)
  /-- BIND, UNBIND, TX_BEGIN (no address) or a host memory write (its address) during a transmission (R164, R170). -/
  | hazardViolation (ch : Nat) (addr : Option Word)
deriving DecidableEq, Repr

/-- The model refusals of R165 that a command or event of a run can meet; ConfigIllFormed is `Refusal.configIllFormed`. -/
inductive CommandRefusal where
  /-- Decoding: a reserved opcode or a 1 in a must-be-0 bit; the header word (30_encoding.md R69). -/
  | illegalCommand (h : Word)
  /-- BIND, TX_BEGIN: a channel number at or above NUM_CHANNELS. -/
  | illegalChannel (ch : Nat)
deriving DecidableEq, Repr

/-- Who issues an interaction (R160). LPT never checks it (R161). -/
inductive Agent where
  /-- The normal context. -/
  | cfg
  /-- The service context of a channel's transmission. -/
  | svc (ch : Nat)
deriving DecidableEq, Repr

/-- The interactions of the host interface (R170), and the power-on reset of 70_reset_and_hazards.md R190. -/
inductive Interaction where
  /-- The words of one command, header first. -/
  | command (ws : List Word)
  /-- A host memory write. -/
  | hostWrite (addr : Word) (b : Byte)
  /-- TX_BEGIN. -/
  | txBegin (ch : Nat) (base len : Word)
  /-- TX_END. -/
  | txEnd (ch : Nat)
  /-- Power-on reset. -/
  | powerOnReset
deriving DecidableEq, Repr

/-- An interaction and the agent that issues it. -/
structure PortItem where
  agent : Agent
  act   : Interaction
deriving DecidableEq, Repr

/-- Host memory: (address, byte) pairs, addresses strictly rising, no byte 0; an address not listed reads as 0. -/
abbrev Memory := List Host.Cell

/-- The machine's state. -/
structure State where
  /-- The built parameter set: constants no step writes (R27, R28). -/
  cfg      : Config
  /-- The context slots, one for each channel (R21). -/
  ctx      : List Slot
  /-- The transmission trackers, one for each channel (R30). -/
  tx       : List Tx
  /-- Host memory (20_memory.md R40). -/
  mem      : Memory
  /-- The interactions presented and not yet accepted, in order of acceptance (R51, R160). -/
  port     : List PortItem
  /-- The words placed on the response port, in order (30_encoding.md R66). -/
  response : List Word
  /-- The model faults recorded so far, in the order raised (R30, R164). -/
  faults   : List ModelFault
  /-- The refusals so far, in order; the mark `refused` of R30 is set when there is one. -/
  refusals : List CommandRefusal
deriving DecidableEq, Repr

/-- Why a step can stop with a fault. A model fault of R164 is no such stop: it is recorded and the run goes on. -/
inductive Fault where
  /-- Raised by the step for a frame on the command port that is no whole command: empty, or a legal header with the wrong
  number of operand words. The host must present whole commands (R170) and the spec gives a part of one no effect. Safe:
  the model stops where the block would do something no rule says. -/
  | commandNotWhole
deriving DecidableEq, Repr

/-- Why the model refuses to go on. -/
inductive Refusal where
  /-- An instruction that has no meaning yet. No arm of this model raises it. Safe. -/
  | notModelled (mnemonic : String)
  /-- Raised when a model is built from a parameter set that breaks 00_scope.md R9 (R165). Safe. -/
  | configIllFormed
  /-- Raised by the step for a power-on reset while a transmission is Active, which R190 says a model refuses. Safe. -/
  | resetDuringActivity
deriving DecidableEq, Repr

/-- What State.reset puts into the profile of an unbound slot. R31 leaves it unspecified and unobservable
[DESIGN CHOICE, log entry 5]. -/
def resetProfile : TimingProfile := { lowOn := 0, lowOff := 0, highOn := 0, highOff := 0, reset := 0 }

/-- The state after reset of the block built with a parameter set (10_state.md R31, 70_reset_and_hazards.md R190). -/
def State.resetWith (c : Config) : State :=
  { cfg := c
    ctx := List.replicate c.params.numChannels { bound := false, profile := resetProfile }
    tx := List.replicate c.params.numChannels .idle
    mem := []
    port := []
    response := []
    faults := []
    refusals := [] }

/-- The state after reset with the reference parameter set (40_resolver.md R93) [DESIGN CHOICE, log entry 4]. -/
def State.reset : State := State.resetWith Config.reference

end Sys2Proof.Machine
end

