-- ==== Sys2Proof/Machine/Ops.lean ====
section
/-! DEFINITION. The named operations over memory, context slots, trackers, the response port and the records of faults and
refusals. `State.raise` is the one operation by which a model fault is taken: LPT has no trap entry and no trap return, so
it records the fault and changes nothing else (60_exceptions.md R164, R168, R169). -/

namespace Sys2Proof.Machine

/-! ### Host memory (20_memory.md R40 to R44) -/

/-- The canonical form: addresses strictly rising and inside the space, no entry equal to what an unlisted address reads as. -/
def Memory.wf : Memory → Bool
  | [] => true
  | [(a, b)] => decide (a < memorySize) && b != 0#8
  | (a, b) :: (k, c) :: rest => decide (a < k) && b != 0#8 && Memory.wf ((k, c) :: rest)

/-- The byte at an address: `MemRead(addr, 1)`. An address not listed reads as 0 [DESIGN CHOICE, log entry 6]. -/
def Memory.read : Memory → Nat → Byte
  | [], _ => 0#8
  | (k, b) :: rest, a => if k = a then b else Memory.read rest a

/-- Put a byte at an address, keeping the canonical form. -/
def Memory.write : Memory → Nat → Byte → Memory
  | [], a, b => if b = 0#8 then [] else [(a, b)]
  | (k, c) :: rest, a, b =>
    if a < k then (if b = 0#8 then (k, c) :: rest else (a, b) :: (k, c) :: rest)
    else if a = k then (if b = 0#8 then rest else (a, b) :: rest)
    else (k, c) :: Memory.write rest a b

/-- Bytes put at successive addresses, the first at the lowest, in ascending order. -/
def Memory.writeBytes (m : Memory) (a : Nat) : List Byte → Memory
  | [] => m
  | b :: bs => Memory.writeBytes (m.write a b) (a + 1) bs

/-- The bytes of a word in memory order, little-endian (R42). -/
def wordBytes (w : Word) : List Byte :=
  [w.extractLsb' 0 8, w.extractLsb' 8 8, w.extractLsb' 16 8, w.extractLsb' 24 8]

/-- `MemWrite(addr, 4, w)` (R42). -/
def Memory.writeWord (m : Memory) (a : Nat) (w : Word) : Memory := m.writeBytes a (wordBytes w)

/-- Words put at successive word addresses, in ascending order (R42). -/
def Memory.writeWords (m : Memory) (a : Nat) : List Word → Memory
  | [] => m
  | w :: ws => Memory.writeWords (m.writeWord a w) (a + 4) ws

/-- The little-endian word at an address: `MemRead(addr, 4)` (00_scope.md R11), as a host reads an entry back (R44). -/
def Memory.readWord (m : Memory) (a : Nat) : Word :=
  m.read (a + 3) ++ m.read (a + 2) ++ m.read (a + 1) ++ m.read a

/-- The n bytes from an address, in ascending order (R41). -/
def Memory.readBytes (m : Memory) (a : Nat) : Nat → List Byte
  | 0 => []
  | n + 1 => m.read a :: Memory.readBytes m (a + 1) n

/-- The n words from an address, in ascending order. -/
def Memory.readWords (m : Memory) (a : Nat) : Nat → List Word
  | 0 => []
  | n + 1 => m.readWord a :: Memory.readWords m (a + 4) n

/-! ### Channels (10_state.md R21, R22, R30; 41_context.md R113) -/

/-- NUM_CHANNELS. -/
def State.numChannels (s : State) : Nat := s.cfg.params.numChannels

/-- `ctx[c]`. A channel number with no slot reads as an unbound one. -/
def State.slot (s : State) (c : Nat) : Slot := s.ctx.getD c { bound := false, profile := resetProfile }

/-- `ctx[c] <- v`. -/
def State.setSlot (s : State) (c : Nat) (v : Slot) : State := { s with ctx := s.ctx.set c v }

/-- `avail(c)`: c < NUM_CHANNELS and ctx[c].bound = 1 (R113). -/
def State.avail (s : State) (c : Nat) : Bool := decide (c < s.numChannels) && (s.slot c).bound

/-- `TX[c]`. -/
def State.tracker (s : State) (c : Nat) : Tx := s.tx.getD c .idle

/-- `TX[c] <- t`. -/
def State.setTracker (s : State) (c : Nat) (t : Tx) : State := { s with tx := s.tx.set c t }

/-! ### Memory, responses and records of the state -/

/-- The state with another host memory. -/
def State.setMem (s : State) (m : Memory) : State := { s with mem := m }

/-- `respond(w0, w1, ...)`: the words go on the response port, in order (00_scope.md R11). -/
def State.respond (s : State) (ws : List Word) : State := { s with response := s.response ++ ws }

/-- `raise <Fault>(info)`: the fault is recorded; nothing else changes (R164, R168). -/
def State.raise (s : State) (f : ModelFault) : State := { s with faults := s.faults ++ [f] }

/-- `refuse <Reason>`: the refusal is recorded, which sets the mark; nothing else changes (R165). -/
def State.refuse (s : State) (r : CommandRefusal) : State := { s with refusals := s.refusals ++ [r] }

/-- The sticky mark `refused` of R30. -/
def State.refused (s : State) : Bool := !s.refusals.isEmpty

/-- The state with other pending interactions. -/
def State.setPort (s : State) (ps : List PortItem) : State := { s with port := ps }

/-- An address lies in the source range of an active transmission: base <= addr < base + len, in unbounded numbers (R170). -/
def Tx.covers (t : Tx) (a : Word) : Bool :=
  match t with
  | .idle => false
  | .active base len => decide (base.toNat ≤ a.toNat) && decide (a.toNat < base.toNat + len.toNat)

/-- The channels whose active source range holds an address, in ascending order. -/
def State.coveringChannels (s : State) (a : Word) : List Nat :=
  (List.range s.numChannels).filter fun c => (s.tracker c).covers a

/-- A transmission is Active on some channel (R190). -/
def State.anyActive (s : State) : Bool := s.tx.any fun t => t != .idle

end Sys2Proof.Machine
end

