-- ==== Sys2Proof/Machine/Flags.lean ====
section
/-! DEFINITION. LPT has no status flags, condition codes or error register (10_state.md R26): no command computes a flag. The
one status a command reports is the STAT word of READPROF (30_encoding.md R66). -/

namespace Sys2Proof.Machine

/-- `STAT`: STAT[0] = BOUND, STAT[31:1] = 0 (R66). -/
def statWord (bound : Bool) : Word := (BitVec.ofBool bound).setWidth 32

end Sys2Proof.Machine
end

