-- ==== Sys2Proof/Machine/Context.lean ====
section
/-! DEFINITION. The translator context: BIND, UNBIND, READPROF (41_context.md R110 to R114), with the checks in the order of
60_exceptions.md R166. -/

namespace Sys2Proof.Machine

/-- BIND (R110): IllegalChannel, then HazardViolation, then the whole slot in one step (R114). -/
def execBind (ch : Byte) (prof : TimingProfile) (s : State) : Host.Outcome State Fault Refusal :=
  if s.numChannels ≤ ch.toNat then .next (s.refuse (.illegalChannel ch.toNat))
  else if s.tracker ch.toNat ≠ .idle then .next (s.raise (.hazardViolation ch.toNat none))
  else .next (s.setSlot ch.toNat { bound := true, profile := prof })

/-- UNBIND (R111): no effect out of range; HazardViolation; else bound <- 0, the profile staying unobservable (R23). -/
def execUnbind (ch : Byte) (s : State) : Host.Outcome State Fault Refusal :=
  if s.numChannels ≤ ch.toNat then .next s
  else if s.tracker ch.toNat ≠ .idle then .next (s.raise (.hazardViolation ch.toNat none))
  else .next (s.setSlot ch.toNat { s.slot ch.toNat with bound := false })

/-- The response of READPROF: STAT and the profile's words, or four zeros (R112). -/
def readprofWords (s : State) (c : Nat) : List Word :=
  if s.avail c then statWord true :: profWords (s.slot c).profile
  else [statWord false, 0#32, 0#32, 0#32]

/-- READPROF (R112). -/
def execReadprof (ch : Byte) (s : State) : Host.Outcome State Fault Refusal :=
  .next (s.respond (readprofWords s ch.toNat))

end Sys2Proof.Machine
end

