-- ==== Sys2Proof/Machine/Resolver.lean ====
section
/-! DEFINITION. The Timing Profile Resolver: table rows, lookup with the fallback to row 0, and RESOLVE (40_resolver.md
R92 to R97, R99). -/

namespace Sys2Proof.Machine

/-- The first row of a table with a key. -/
def findRow (rows : List TableRow) (pid : Nat) : Option TableRow :=
  match rows with
  | [] => none
  | r :: rest => if r.key = pid then some r else findRow rest pid

/-- `row_for(pid)`: the first row with that key, else row 0 (R94). The second argument of headD is never used: a built
parameter set has a row (R9). -/
def rowFor (c : Config) (pid : Nat) : TableRow :=
  (findRow c.params.table pid).getD (c.params.table.headD refRowA)

/-- A tick count as a 15-bit field; a built parameter set has none above 32767 (R9, R92). -/
def tickOf (n : Nat) : Tick := BitVec.ofNat 15 n

/-- `table_profile(row)` (R92). -/
def tableProfile (p : Params) (r : TableRow) : TimingProfile :=
  { lowOn   := tickOf (p.ticksNs r.t0hNs)
    lowOff  := tickOf (p.ticksNs r.t0lNs)
    highOn  := tickOf (p.ticksNs r.t1hNs)
    highOff := tickOf (p.ticksNs r.t1lNs)
    reset   := tickOf (p.ticksUs r.resetUs) }

/-- The profile RESOLVE answers: the manual one unchanged (R96), or the table's (R95). -/
def resolveProfile (c : Config) (pid : Byte) (man : Bool) (manual : TimingProfile) : TimingProfile :=
  if man then manual else tableProfile c.params (rowFor c pid.toNat)

/-- RESOLVE (R95). -/
def execResolve (pid : Byte) (man : Bool) (manual : TimingProfile) (s : State) : Host.Outcome State Fault Refusal :=
  .next (s.respond (profWords (resolveProfile s.cfg pid man manual)))

end Sys2Proof.Machine
end

