-- ==== Sys2Proof/Machine/Operands.lean ====
section
/-! DEFINITION. What the ARG operands of TRANSLATE mean (30_encoding.md R67): unsigned numbers with no extension or scaling,
the count of bytes they allow (42_translate.md R134) and the three conditions on the ranges they name (20_memory.md R45 to R47). -/

namespace Sys2Proof.Machine

/-- `n = min(cap div 8, len)`: the bytes one TRANSLATE consumes (R134). -/
def consumedBytes (len cap : Word) : Nat := min (cap.toNat / 8) len.toNat

/-- The source or the entry range of n bytes passes the top of host memory (R46). -/
def rangePasses (src dst : Word) (n : Nat) : Bool :=
  decide (memorySize < src.toNat + n) || decide (memorySize < dst.toNat + 32 * n)

/-- The entry buffer's address is no multiple of 4 (R45). -/
def dstMisaligned (dst : Word) : Bool := dst.toNat % 4 != 0

/-- The byte ranges [src, src + n) and [dst, dst + 32n) overlap (R47). -/
def rangesOverlap (src dst : Word) (n : Nat) : Bool :=
  decide (src.toNat < dst.toNat + 32 * n) && decide (dst.toNat < src.toNat + n)

/-- The fault a TRANSLATE of n bytes, n at least 1, raises, if any, in the order of checks of R133 and R166. -/
def translateFault (src dst : Word) (n : Nat) : Option ModelFault :=
  if rangePasses src dst n then some (.addressRange src dst)
  else if dstMisaligned dst then some (.misaligned dst)
  else if rangesOverlap src dst n then some (.overlap src dst)
  else none

/-- A count as a response word (ARG, R66, R67). -/
def countWord (n : Nat) : Word := BitVec.ofNat 32 n

end Sys2Proof.Machine
end

