-- ==== Sys2Proof/Machine/Pulse.lean ====
section
/-! DEFINITION. Entries: of a bit, a byte and a byte sequence (42_translate.md R130 to R132) and their words
(30_encoding.md R62, R63). -/

namespace Sys2Proof.Machine

/-- `entry(b, p)` (R130). -/
def entryOf (b : Bool) (p : TimingProfile) : Entry :=
  if b then { dur0 := p.highOn, level0 := true, dur1 := p.highOff, level1 := false }
  else { dur0 := p.lowOn, level0 := true, dur1 := p.lowOff, level1 := false }

/-- The ENTRY word of an entry: {LVL1, DUR1, LVL0, DUR0} (R62). -/
def entryPack (e : Entry) : Word :=
  e.dur0.setWidth 32 ||| ((BitVec.ofBool e.level0).setWidth 32 <<< 15) ||| (e.dur1.setWidth 32 <<< 16) |||
    ((BitVec.ofBool e.level1).setWidth 32 <<< 31)

/-- `entry_word(b, p)`, as R63 computes it. -/
def entryWord (b : Bool) (p : TimingProfile) : Word :=
  if b then (p.highOff.setWidth 32 <<< 16) ||| (1#32 <<< 15) ||| p.highOn.setWidth 32
  else (p.lowOff.setWidth 32 <<< 16) ||| (1#32 <<< 15) ||| p.lowOn.setWidth 32

/-- `encode_byte(b, p)`: eight entries, most significant bit first (R131, 20_memory.md R43). -/
def encodeByte (b : Byte) (p : TimingProfile) : List Entry :=
  [entryOf (b.getLsbD 7) p, entryOf (b.getLsbD 6) p, entryOf (b.getLsbD 5) p, entryOf (b.getLsbD 4) p,
   entryOf (b.getLsbD 3) p, entryOf (b.getLsbD 2) p, entryOf (b.getLsbD 1) p, entryOf (b.getLsbD 0) p]

/-- `encode_buffer(B, p)` (R131). -/
def encodeBuffer : List Byte → TimingProfile → List Entry
  | [], _ => []
  | b :: bs, p => encodeByte b p ++ encodeBuffer bs p

/-- The eight words TRANSLATE writes for a byte: `entry_word(b[7 - j], p)` for j = 0..7 (R133). -/
def byteWords (b : Byte) (p : TimingProfile) : List Word :=
  (List.range 8).map fun j => entryWord (b.getLsbD (7 - j)) p

end Sys2Proof.Machine
end

