-- ==== Sys2Proof/Machine/Translate.lean ====
section
/-! DEFINITION. The Bit-to-Pulse Translator: TRANSLATE (42_translate.md R133 to R139). -/

namespace Sys2Proof.Machine

/-- The loop of R133: for each of n bytes in ascending order, read the byte and write its eight entry words. -/
def translateBytes (p : TimingProfile) : Nat → Nat → Nat → Memory → Memory
  | 0, _, _, m => m
  | n + 1, src, dst, m =>
    translateBytes p n (src + 1) (dst + 32) (m.writeWords dst (byteWords (m.read src) p))

/-- The effect of a TRANSLATE that consumes n bytes and meets no fault: the entry words, then (CONSUMED, PRODUCED). -/
def translateRun (p : TimingProfile) (src dst : Word) (n : Nat) (s : State) : State :=
  (s.setMem (translateBytes p n src.toNat dst.toNat s.mem)).respond [countWord n, countWord (8 * n)]

/-- TRANSLATE (R133), with the checks in the order of R166: availability, n = 0, then the three range conditions. -/
def execTranslate (ch : Byte) (src len dst cap : Word) (s : State) : Host.Outcome State Fault Refusal :=
  if s.avail ch.toNat = false then .next (s.respond [countWord 0, countWord 0])
  else if consumedBytes len cap = 0 then .next (s.respond [countWord 0, countWord 0])
  else
    match translateFault src dst (consumedBytes len cap) with
    | some f => .next (s.raise f)
    | none => .next (translateRun (s.slot ch.toNat).profile src dst (consumedBytes len cap) s)

end Sys2Proof.Machine
end

