-- ==== Sys2Proof/Machine/Dispatch.lean ====
section
/-! DEFINITION. Each command's meaning, one arm for each constructor of Instr. -/

namespace Sys2Proof.Machine

def exec (i : Instr) (s : State) : Host.Outcome State Fault Refusal :=
  match i with
  | .resolve pid man manual => Sys2Proof.Machine.execResolve pid man manual s
  | .bind ch prof => Sys2Proof.Machine.execBind ch prof s
  | .unbind ch => Sys2Proof.Machine.execUnbind ch s
  | .readprof ch => Sys2Proof.Machine.execReadprof ch s
  | .translate ch src len dst cap => Sys2Proof.Machine.execTranslate ch src len dst cap s

end Sys2Proof.Machine
end

