-- ==== Sys2Proof/Machine/Events.lean ====
section
/-! DEFINITION. The host interface (60_exceptions.md R170): what the block does with each interaction it accepts, and how it
accepts the next one. -/

namespace Sys2Proof.Machine

/-- A host memory write: HazardViolation(c, addr) for each channel c whose active source range holds the address, the byte
not being written; else the byte is written (R170, 70_reset_and_hazards.md R193). -/
def hostWrite (addr : Word) (b : Byte) (s : State) : State :=
  match s.coveringChannels addr with
  | [] => s.setMem (s.mem.write addr.toNat b)
  | cs => cs.foldl (fun t c => t.raise (.hazardViolation c (some addr))) s

/-- TX_BEGIN(c, base, len) (R170), with the checks in the order of R166. -/
def txBegin (ch : Nat) (base len : Word) (s : State) : State :=
  if s.numChannels ≤ ch then s.refuse (.illegalChannel ch)
  else if s.tracker ch ≠ .idle then s.raise (.hazardViolation ch none)
  else s.setTracker ch (.active base len)

/-- TX_END(c): the tracker becomes Idle; no effect if it is, or out of range (R170). -/
def txEnd (ch : Nat) (s : State) : State := s.setTracker ch .idle

/-- A power-on reset (70_reset_and_hazards.md R190): refused while a transmission is Active; else LPT's state becomes that
of 10_state.md R31. Host memory and the two ports are the host's and stay [DESIGN CHOICE, log entry 13]. -/
def powerOnReset (s : State) : Host.Outcome State Fault Refusal :=
  if s.anyActive then .refused .resetDuringActivity
  else .next { State.resetWith s.cfg with mem := s.mem, port := s.port, response := s.response }

/-- A frame of words on the command port: decode it and run the command; an IllegalCommand refusal is recorded (R165); a
frame that is no whole command stops the model [DESIGN CHOICE, log entry 3]. -/
def runFrame (ws : List Word) (s : State) : Host.Outcome State Fault Refusal :=
  match decode ws with
  | .ok i => exec i s
  | .error (.illegalCommand h) => .next (s.refuse (.illegalCommand h))
  | .error .notWhole => .fault .commandNotWhole

/-- What one accepted interaction does. Who issued it is not asked (R161). -/
def runInteraction (a : Interaction) (s : State) : Host.Outcome State Fault Refusal :=
  match a with
  | .command ws => runFrame ws s
  | .hostWrite addr b => .next (hostWrite addr b s)
  | .txBegin ch base len => .next (txBegin ch base len s)
  | .txEnd ch => .next (txEnd ch s)
  | .powerOnReset => powerOnReset s

/-- Accept the interaction at the head of the port, whole, in one step (20_memory.md R48, R51). With nothing pending the
block takes no step of its own (R160): the state stays [DESIGN CHOICE, log entry 2]. -/
def acceptNext (s : State) : Host.Outcome State Fault Refusal :=
  match s.port with
  | [] => .next s
  | p :: ps => runInteraction p.act (s.setPort ps)

end Sys2Proof.Machine
end

