-- ==== Sys2Proof/Machine/Step.lean ====
section
/-! DEFINITION. One step of the machine: the next pending interaction is accepted (20_memory.md R51). LPT fetches nothing
(10_state.md R24), so a command is placed for the next step by presenting it at the head of the port. -/

namespace Sys2Proof.Machine

/-- One step. -/
def step (s : State) : Host.Outcome State Fault Refusal := acceptNext s

/-- The state with the command of these bits presented as the next interaction. -/
def State.withFetchWord (s : State) (nbits w : Nat) : State :=
  s.setPort ({ agent := .cfg, act := .command (tableWords nbits w) } :: s.port)

end Sys2Proof.Machine
end

