-- ==== Sys2Proof/Machine/Build.lean ====
section
/-! DEFINITION. Building a model from a parameter set (00_scope.md R9, 60_exceptions.md R165). -/

namespace Sys2Proof.Machine

/-- The block built with a parameter set, right after reset; an ill-formed set is refused, ConfigIllFormed (R9). -/
def State.build (p : Params) : Host.Outcome State Fault Refusal :=
  if h : p.wellFormed = true then .next (State.resetWith { params := p, ok := h })
  else .refused .configIllFormed

end Sys2Proof.Machine
end

