-- ==== Sys2Proof/Machine/Driver.lean ====
section
/-! DEFINITION. What a host does with several commands: the pseudo-commands INSTALL, FREE and XLATE_ALL (30_encoding.md R75)
and the driver loop of a transmission (42_translate.md R140). These are procedures of the host, written over `exec`; LPT
itself keeps no cursor (10_state.md R24). A host reads a command's answer off the response port. -/

namespace Sys2Proof.Machine

/-- The words a command placed on the response port. -/
def newResponse (before after : State) : List Word := after.response.drop before.response.length

/-- `INSTALL ch, pid, man, manual`: P := RESOLVE ..., then BIND ch, prof = P (R75). -/
def runInstall (ch pid : Byte) (man : Bool) (manual : TimingProfile) (s : State) : Host.Outcome State Fault Refusal :=
  match exec (.resolve pid man manual) s with
  | .next t =>
    match newResponse s t with
    | [p0, p1, p2] => exec (.bind ch (profOfWords p0 p1 p2)) t
    | _ => .next t
  | .fault f => .fault f
  | .refused r => .refused r

/-- `FREE ch`: UNBIND ch (R75). -/
def runFree (ch : Byte) (s : State) : Host.Outcome State Fault Refusal := exec (.unbind ch) s

/-- The TRANSLATE a host issues for numbers it computed: each operand is an ARG word, 0..2^32 - 1 (30_encoding.md R67), so
with a larger number there is no such command. The host's own arithmetic is on unbounded numbers (00_scope.md R10). -/
def hostTranslate (ch : Byte) (src len dst : Nat) (cap : Word) : Option Instr :=
  if src < memorySize ∧ len < memorySize ∧ dst < memorySize then
    some (.translate ch (BitVec.ofNat 32 src) (BitVec.ofNat 32 len) (BitVec.ofNat 32 dst) cap)
  else none

/-- What a host gets of a TRANSLATE it issues: the state after it, and CONSUMED and PRODUCED where it responded. None where
there is no such command. -/
def hostCall (ch : Byte) (src len dst : Nat) (cap : Word) (s : State) : Option (State × Option (Nat × Nat)) :=
  match hostTranslate ch src len dst cap with
  | none => none
  | some i =>
    match exec i s with
    | .next t =>
      match newResponse s t with
      | [m, e] => some (t, some (m.toNat, e.toNat))
      | _ => some (t, none)
    | .fault _ => none
    | .refused _ => none

/-- What the driver chooses for one call: the slots it offers and where they lie (R140). -/
structure DriverCall where
  cap : Word
  dst : Word
deriving DecidableEq, Repr

/-- Where a driver stands: the machine, its cursor s, the bytes r that remain, and the entry words it handed to the
peripheral so far, in call order (R140). The cursor and the count are unbounded numbers (R10). -/
structure DriverRun where
  state   : State
  src     : Nat
  left    : Nat
  entries : List Word
deriving DecidableEq, Repr

/-- One call of the driver loop: TRANSLATE, then the cursor moves by CONSUMED and the PRODUCED entries are taken from the
buffer. A call that gives no response (a model fault) tells the driver nothing, and it stays where it is; a call whose
operands fit no ARG word is not made [DESIGN CHOICE, log entry 20]. -/
def driverCall (ch : Byte) (k : DriverCall) (d : DriverRun) : DriverRun :=
  match hostCall ch d.src d.left k.dst.toNat k.cap d.state with
  | some (t, some (m, e)) =>
    { state := t, src := d.src + m, left := d.left - m, entries := d.entries ++ t.mem.readWords k.dst.toNat e }
  | some (t, none) => { d with state := t }
  | none => d

/-- The driver loop over the calls the driver chooses: no call is made when no byte remains (R140). -/
def driverLoop (ch : Byte) : List DriverCall → DriverRun → DriverRun
  | [], d => d
  | k :: ks, d => if d.left = 0 then d else driverLoop ch ks (driverCall ch k d)

/-- The loop of XLATE_ALL with at most so many calls: repeat TRANSLATE with a fixed capacity until CONSUMED = 0 (R75), in
unbounded numbers (R10). It also ends at a call that gives no response, and where the next call's operands fit no ARG word,
which is not made [DESIGN CHOICE, log entry 20]. -/
def xlateLoop (ch : Byte) (cap : Word) : Nat → Nat → Nat → Nat → State → State
  | 0, _, _, _, s => s
  | fuel + 1, src, len, dst, s =>
    match hostCall ch src len dst cap s with
    | some (t, some (m, e)) =>
      if m = 0 then t else xlateLoop ch cap fuel (src + m) (len - m) (dst + 4 * e) t
    | some (t, none) => t
    | none => s

/-- `XLATE_ALL ch, src, len, dst, cap` (R75). Every call but the last consumes a byte, so len + 1 calls are enough. -/
def runXlateAll (ch : Byte) (src len dst cap : Word) (s : State) : State :=
  xlateLoop ch cap (len.toNat + 1) src.toNat len.toNat dst.toNat s

end Sys2Proof.Machine
end

