-- ==== Sys2Proof/Safety.lean ====
section
/-! DEFINITION. The terms in which statements about the machine are made: the invariant of its states, what of a state can be
observed, and how two outcomes compare. -/

namespace Sys2Proof.Machine

/-- The invariant every step keeps: memory in canonical form, one context slot and one tracker for each channel (10_state.md
R21, R30; 20_memory.md R40). -/
def State.Inv (s : State) : Prop :=
  s.mem.wf = true ∧ s.ctx.length = s.numChannels ∧ s.tx.length = s.numChannels

/-- No fault and no refusal is recorded: a run that kept every duty of the host (60_exceptions.md R164, R165, R171). -/
def State.Clean (s : State) : Prop := s.faults = [] ∧ s.refused = false

/-- A slot with the profile wiped while it is unbound, which is all of a slot that can be observed (10_state.md R23). -/
def Slot.observable (v : Slot) : Slot := if v.bound then v else { v with profile := resetProfile }

/-- A state with the profiles of all unbound slots wiped. -/
def State.observable (s : State) : State := { s with ctx := s.ctx.map Slot.observable }

/-- A function on states carried to outcomes; stops stay as they are. -/
def mapNext (f : State → State) : Host.Outcome State Fault Refusal → Host.Outcome State Fault Refusal
  | .next s => .next (f s)
  | .fault r => .fault r
  | .refused r => .refused r

/-- The channel whose slot a command may read or write; RESOLVE has none (60_exceptions.md R172). -/
def instrChannel : Instr → Option Nat
  | .resolve _ _ _ => none
  | .bind ch _ => some ch.toNat
  | .unbind ch => some ch.toNat
  | .readprof ch => some ch.toNat
  | .translate ch _ _ _ _ => some ch.toNat

/-- A command is a TRANSLATE, the only one that reaches host memory (20_memory.md R40). -/
def isTranslate : Instr → Bool
  | .resolve _ _ _ => false
  | .bind _ _ => false
  | .unbind _ => false
  | .readprof _ => false
  | .translate _ _ _ _ _ => true

/-- What one agent has presented and the block has not yet accepted, in the agent's order of issue (20_memory.md R51). -/
def State.issued (s : State) (a : Agent) : List Interaction :=
  (s.port.filter fun p => p.agent = a).map PortItem.act

/-- No active source range holds an address: a host may write it (60_exceptions.md R170). -/
def State.freeAddress (s : State) (a : Word) : Prop :=
  ∀ c base len, c < s.numChannels → s.tracker c = .active base len →
    ¬ (base.toNat ≤ a.toNat ∧ a.toNat < base.toNat + len.toNat)

/-- The conditions under which a TRANSLATE of n bytes meets no fault (20_memory.md R45, R46, R47). -/
def RangesFit (src dst n : Nat) : Prop :=
  src + n ≤ memorySize ∧ dst + 32 * n ≤ memorySize ∧ dst % 4 = 0 ∧ (dst + 32 * n ≤ src ∨ src + n ≤ dst)

/-- The next interaction is not a power-on reset. -/
def State.noResetNext (s : State) : Prop := ∀ p ps, s.port = p :: ps → p.act ≠ .powerOnReset

end Sys2Proof.Machine
end

