-- ==== Sys2Proof/Certificates/Slice0/Obligations.lean ====
section
/-! DEFINITION. The statements for the provers. Each docstring names the rules of spec/ it formalises, or the sections it is
derived from, and the log entries it rests on where it does. A statement with `∀ s : State` holds for every well-formed
parameter set, since State carries one. -/

open Sys2Proof Sys2Proof.Machine

/-! ### Encoding -/

/-- Decoding the words the encoder writes gives the command back, for every command and every operand value (R61, R64,
R65, R69). -/
def Obligations.DecodeOfEncode : Prop := ∀ i : Instr, decode (encode i) = .ok i

/-- A frame of words that decodes is the encoding of what it decodes to, so each command has one frame of words, of the
length R65 gives (R65, R69, R73). -/
def Obligations.EncodeOfDecode : Prop :=
  ∀ (ws : List Word) (i : Instr), decode ws = .ok i → encode i = ws ∧ ws.length = wordCount i

/-- Words printed in 30_encoding.md, 41_context.md and 95_test_vectors.md decode to the commands printed beside them. -/
def Obligations.PrintedWordsDecode : Prop :=
  decode [0x00010001#32, 0#32, 0#32, 0#32] = .ok (.resolve 1 false ⟨0, 0, 0, 0, 0⟩) ∧
  decode [0x01000001#32, 0x00020001#32, 0x00040003#32, 0x00000005#32] = .ok (.resolve 0 true ⟨1, 2, 3, 4, 5⟩) ∧
  decode [0x00000002#32, 0x0020000E#32, 0x0018001C#32, 0x000007D0#32] = .ok (.bind 0 ⟨14, 32, 28, 24, 2000⟩) ∧
  decode [0x00000303#32] = .ok (.unbind 3) ∧
  decode [0x0000FF04#32] = .ok (.readprof 255) ∧
  decode [0x00000105#32, 0x00003001#32, 0x00000002#32, 0x00004020#32, 0x0000000A#32] =
    .ok (.translate 1 0x3001 2 0x4020 10) ∧
  decode [0x00000101#32, 0#32, 0#32, 0#32] = .error (.illegalCommand 0x00000101#32) ∧
  decode [0x01000005#32, 0#32, 0#32, 0#32, 0#32] = .error (.illegalCommand 0x01000005#32)

/-- The decoder's test of a header word (R68, R69) accepts exactly the header words that a row of the opcode table matches
under its mask (opcode_table.json). -/
def Obligations.LegalHeadersAreTableRows : Prop :=
  ∀ h : Word, (∃ o, opcodeOf (hdrOpc h) = some o ∧ hdrLegal o h = true) ↔ ∃ r ∈ opcodeTable, r.matches h = true

/-- A header with a reserved opcode, 0x00 or 0x06 to 0xFF, is refused with IllegalCommand, whatever words follow it: the
model's record of refusals (log entries 7 and 9) gets that one, the interaction leaves the port, and nothing else changes
(R70, R165). -/
def Obligations.ReservedOpcodeRefused : Prop :=
  ∀ (s : State) (a : Agent) (h : Word) (ops : List Word) (ps : List PortItem),
    s.port = { agent := a, act := .command (h :: ops) } :: ps →
    (h.extractLsb' 0 8 = 0x00#8 ∨ 0x06 ≤ (h.extractLsb' 0 8).toNat) →
    step s = .next { s with port := ps, refusals := s.refusals ++ [.illegalCommand h] }

/-- A 1 in any must-be-0 bit, of the header or of a PROF word, makes the command refused with IllegalCommand: the model's
record of refusals (log entries 7 and 9) gets that one, the interaction leaves the port, and nothing else changes (R69, R71,
R165). For the PROF words of a RESOLVE or a BIND the frame holds all three (log entry 24). -/
def Obligations.MustBeZeroBitRefused : Prop :=
  ∀ (s : State) (a : Agent) (h : Word) (ops : List Word) (ps : List PortItem),
    s.port = { agent := a, act := .command (h :: ops) } :: ps →
    (h.extractLsb' 25 7 ≠ 0#7 ∨
      (h.extractLsb' 0 8 = 0x01#8 ∧ h.extractLsb' 8 8 ≠ 0#8) ∨
      (0x02 ≤ (h.extractLsb' 0 8).toNat ∧ (h.extractLsb' 0 8).toNat ≤ 0x05 ∧ h.extractLsb' 16 9 ≠ 0#9) ∨
      ((h.extractLsb' 0 8 = 0x01#8 ∨ h.extractLsb' 0 8 = 0x02#8) ∧ ∃ p0 p1 p2, ops = [p0, p1, p2] ∧
        (p0.getLsbD 15 = true ∨ p0.getLsbD 31 = true ∨ p1.getLsbD 15 = true ∨ p1.getLsbD 31 = true ∨
          p2.extractLsb' 15 17 ≠ 0#17))) →
    step s = .next { s with port := ps, refusals := s.refusals ++ [.illegalCommand h] }

/-! ### Steps and agents -/

/-- A step at a state whose next pending interaction is a frame of words that decodes to a command runs that command on the
state with the interaction taken off the port (20_memory.md R51; log entry 1). -/
def Obligations.StepRunsDecodedCommand : Prop :=
  ∀ (s : State) (a : Agent) (ws : List Word) (ps : List PortItem) (i : Instr),
    s.port = { agent := a, act := .command ws } :: ps → decode ws = .ok i →
    step s = exec i { s with port := ps }

/-- A step takes exactly one interaction, the first of the port: it is the first its agent issued, the agent's other
interactions stay in their order, and what every other agent issued stays as it is (R51, R160; log entry 1). With nothing
pending the state stays (R160; log entry 2). -/
def Obligations.StepAcceptsInIssueOrder : Prop :=
  ∀ s : State,
    (s.port = [] → step s = .next s) ∧
    ∀ (p : PortItem) (ps : List PortItem) (t : State), s.port = p :: ps → step s = .next t →
      s.issued p.agent = p.act :: t.issued p.agent ∧ ∀ b, b ≠ p.agent → t.issued b = s.issued b

/-- A step never asks which agent issued an interaction: renaming the agents of all that is pending, in any way, before the
step or after it comes to the same. R161 says it of commands; that a host write, TX_BEGIN, TX_END or a power-on reset of any
agent is accepted alike is the model's choice (log entry 19). -/
def Obligations.IssuerIsNeverAsked : Prop :=
  ∀ (f : Agent → Agent) (s : State),
    let rename := fun t : State => { t with port := t.port.map fun p => { p with agent := f p.agent } }
    step (rename s) = mapNext rename (step s)

/-- Every command, with every operand, on every state, answers a next state: no command stops the machine (R162, R168,
R169). -/
def Obligations.EveryCommandCompletes : Prop := ∀ (i : Instr) (s : State), ∃ t, exec i s = .next t

/-- The only two ways a step stops: a frame on the command port that is no whole command (the model's own fault, log entry
3), and a power-on reset while a transmission is Active, which R190 says a model refuses (log entry 13). -/
def Obligations.OnlyTwoStops : Prop :=
  ∀ s : State,
    (∀ f, step s = .fault f ↔ f = .commandNotWhole ∧
      ∃ a ws ps, s.port = { agent := a, act := .command ws } :: ps ∧ decode ws = .error .notWhole) ∧
    (∀ r, step s = .refused r ↔ r = .resetDuringActivity ∧
      ∃ a ps, s.port = { agent := a, act := .powerOnReset } :: ps ∧ ∃ t ∈ s.tx, t ≠ .idle)

/-- A frame whose header is legal is no whole command exactly when its operand words are not as many as R65 gives its
opcode; the empty frame is none either (R65, R69; log entries 3 and 24). -/
def Obligations.WholeFramesHaveTheLengthOfTheirOpcode : Prop :=
  decode [] = .error .notWhole ∧
  ∀ (o : Opcode) (h : Word) (ops : List Word), opcodeOf (hdrOpc h) = some o → hdrLegal o h = true →
    (decode (h :: ops) = .error .notWhole ↔ ops.length ≠ operandWords o)

/-! ### The resolver -/

/-- RESOLVE answers on the response port the PROF words of the manual profile if MAN is 1, and else of the table's profile
for the identifier; nothing else changes (R95, R96, R97). -/
def Obligations.ResolveAnswersByFlag : Prop :=
  ∀ (s : State) (pid : Byte) (m : TimingProfile),
    exec (.resolve pid true m) s =
      .next { s with response := s.response ++ [profP0 m, profP1 m, profP2 m] } ∧
    exec (.resolve pid false m) s =
      .next { s with response := s.response ++
        (let p := tableProfile s.cfg.params (rowFor s.cfg pid.toNat); [profP0 p, profP1 p, profP2 p]) }

/-- What a host reads off the response of RESOLVE is the profile, field for field: the PROF words are legal and unpack to
it, the manual profile thus passing through unchanged (R64, R95, R96). -/
def Obligations.ResolveResponseCarriesProfile : Prop :=
  ∀ (s : State) (pid : Byte) (man : Bool) (m : TimingProfile),
    ∃ t p0 p1 p2, exec (.resolve pid man m) s = .next t ∧ t.response = s.response ++ [p0, p1, p2] ∧
      profLegal p0 p1 p2 = true ∧
      profOfWords p0 p1 p2 = if man then m else tableProfile s.cfg.params (rowFor s.cfg pid.toNat)

/-- R94: the row for an identifier is the first row with that key, or row 0 if no row has it. -/
def Obligations.RowLookupFirstMatchElseRowZero : Prop :=
  ∀ (c : Config) (pid : Nat),
    (∀ (k : Nat) (r : TableRow), c.params.table[k]? = some r → r.key = pid →
      (∀ (j : Nat) (q : TableRow), j < k → c.params.table[j]? = some q → q.key ≠ pid) → rowFor c pid = r) ∧
    ((∀ r ∈ c.params.table, r.key ≠ pid) → c.params.table[0]? = some (rowFor c pid))

/-- The laws of the conversion that 40_resolver.md section 4 derives from R91: it is exact when the duration is a whole number of ticks and else the least whole number of
ticks above it; it maps 0 to 0, is monotone, never shortens a duration, and ticks_us(t) = ticks_ns(1000 t). -/
def Obligations.TickConversionLaws : Prop :=
  ∀ p : Params, p.wellFormed = true → ∀ t : Nat,
    (p.clkDiv * 1000000000 ∣ t * p.srcClkHz →
      p.ticksNs t = t * p.srcClkHz / (p.clkDiv * 1000000000)) ∧
    (¬ p.clkDiv * 1000000000 ∣ t * p.srcClkHz →
      t * p.srcClkHz < p.ticksNs t * (p.clkDiv * 1000000000) ∧
      ∀ m, t * p.srcClkHz < m * (p.clkDiv * 1000000000) → p.ticksNs t ≤ m) ∧
    p.ticksNs 0 = 0 ∧
    (∀ u, t ≤ u → p.ticksNs t ≤ p.ticksNs u) ∧
    t * p.srcClkHz ≤ p.ticksNs t * (p.clkDiv * 1000000000) ∧
    p.ticksUs t = p.ticksNs (1000 * t)

/-- The profile RESOLVE takes from the table holds the row's tick counts themselves: none is above 32767, so nothing is
truncated (R9, R91, R92, R94). -/
def Obligations.TableProfileHoldsExactTicks : Prop :=
  ∀ (c : Config) (pid : Nat),
    (tableProfile c.params (rowFor c pid)).lowOn.toNat = c.params.ticksNs (rowFor c pid).t0hNs ∧
    (tableProfile c.params (rowFor c pid)).lowOff.toNat = c.params.ticksNs (rowFor c pid).t0lNs ∧
    (tableProfile c.params (rowFor c pid)).highOn.toNat = c.params.ticksNs (rowFor c pid).t1hNs ∧
    (tableProfile c.params (rowFor c pid)).highOff.toNat = c.params.ticksNs (rowFor c pid).t1lNs ∧
    (tableProfile c.params (rowFor c pid)).reset.toNat = c.params.ticksUs (rowFor c pid).resetUs

/-- A model is built from exactly the parameter sets that meet R9's conditions, with R8's upper bound on NUM_CHANNELS (log
entry 17), in the reset state with that set; every other set is refused, ConfigIllFormed. -/
def Obligations.IllFormedParametersNotBuilt : Prop :=
  ∀ p : Params,
    ((1 ≤ p.numChannels ∧ p.numChannels ≤ 256 ∧ 1 ≤ p.srcClkHz ∧ 1 ≤ p.clkDiv ∧ 1 ≤ p.table.length ∧
        ∀ r ∈ p.table, r.key < 256 ∧ p.ticksNs r.t0hNs ≤ 32767 ∧ p.ticksNs r.t0lNs ≤ 32767 ∧
          p.ticksNs r.t1hNs ≤ 32767 ∧ p.ticksNs r.t1lNs ≤ 32767 ∧ p.ticksUs r.resetUs ≤ 32767) ∧
      ∃ c : Config, c.params = p ∧ State.build p = .next (State.resetWith c)) ∨
    (¬ (1 ≤ p.numChannels ∧ p.numChannels ≤ 256 ∧ 1 ≤ p.srcClkHz ∧ 1 ≤ p.clkDiv ∧ 1 ≤ p.table.length ∧
        ∀ r ∈ p.table, r.key < 256 ∧ p.ticksNs r.t0hNs ≤ 32767 ∧ p.ticksNs r.t0lNs ≤ 32767 ∧
          p.ticksNs r.t1hNs ≤ 32767 ∧ p.ticksNs r.t1lNs ≤ 32767 ∧ p.ticksUs r.resetUs ≤ 32767) ∧
      State.build p = .refused .configIllFormed)

/-! ### The translator context -/

/-- BIND on a channel in range whose tracker is Idle answers a next state in which that channel's slot is bound to the
profile and every other slot, and everything else, is as before (R110, R114). -/
def Obligations.BindWritesTheWholeSlot : Prop :=
  ∀ (s : State) (ch : Byte) (p : TimingProfile), s.Inv → ch.toNat < s.numChannels → s.tracker ch.toNat = .idle →
    ∃ t, exec (.bind ch p) s = .next t ∧ t.slot ch.toNat = { bound := true, profile := p } ∧
      (∀ c, c ≠ ch.toNat → t.slot c = s.slot c) ∧ t = { s with ctx := t.ctx }

/-- BIND to a channel number at or above NUM_CHANNELS is refused with IllegalChannel, before any other check; nothing but
the record of the refusal changes (R110, R165, R166). -/
def Obligations.BindOutOfRangeRefused : Prop :=
  ∀ (s : State) (ch : Byte) (p : TimingProfile), s.numChannels ≤ ch.toNat →
    exec (.bind ch p) s = .next { s with refusals := s.refusals ++ [.illegalChannel ch.toNat] }

/-- A BIND or an UNBIND on a channel in range whose tracker is not Idle raises HazardViolation: the model's record of faults
(log entries 7 and 8) gets that one and nothing else changes; an UNBIND raises it whether or not the slot is bound (log
entry 25) (R110, R111, R194). -/
def Obligations.ContextChangeInFlightFaults : Prop :=
  ∀ (s : State) (ch : Byte) (p : TimingProfile), ch.toNat < s.numChannels → s.tracker ch.toNat ≠ .idle →
    exec (.bind ch p) s = .next { s with faults := s.faults ++ [.hazardViolation ch.toNat none] } ∧
    exec (.unbind ch) s = .next { s with faults := s.faults ++ [.hazardViolation ch.toNat none] }

/-- UNBIND on a channel in range whose tracker is Idle answers a next state in which that channel's context is no longer
available and every other slot, and everything else, is as before (R111, R113). -/
def Obligations.UnbindRemovesTheContext : Prop :=
  ∀ (s : State) (ch : Byte), s.Inv → ch.toNat < s.numChannels → s.tracker ch.toNat = .idle →
    ∃ t, exec (.unbind ch) s = .next t ∧ (t.slot ch.toNat).bound = false ∧ t.avail ch.toNat = false ∧
      (∀ c, c ≠ ch.toNat → t.slot c = s.slot c) ∧ t = { s with ctx := t.ctx }

/-- UNBIND of a channel number at or above NUM_CHANNELS, or of a slot that is not bound while the channel's tracker is
Idle, changes nothing and is no error (R111). -/
def Obligations.UnbindOfNothingHasNoEffect : Prop :=
  ∀ (s : State) (ch : Byte),
    (s.numChannels ≤ ch.toNat ∨ (s.tracker ch.toNat = .idle ∧ (s.slot ch.toNat).bound = false)) →
    exec (.unbind ch) s = .next s

/-- READPROF answers STAT = 1 and the PROF words of the channel's profile when the channel is in range and its slot is
bound, and four zero words else; nothing else changes (R112, R113). -/
def Obligations.ReadprofAnswersTheContext : Prop :=
  ∀ (s : State) (ch : Byte),
    (ch.toNat < s.numChannels ∧ (s.slot ch.toNat).bound = true →
      exec (.readprof ch) s = .next { s with response := s.response ++
        [0x00000001#32, profP0 (s.slot ch.toNat).profile, profP1 (s.slot ch.toNat).profile,
          profP2 (s.slot ch.toNat).profile] }) ∧
    (¬ (ch.toNat < s.numChannels ∧ (s.slot ch.toNat).bound = true) →
      exec (.readprof ch) s = .next { s with response := s.response ++
        [0x00000000#32, 0x00000000#32, 0x00000000#32, 0x00000000#32] })

/-- What a BIND binds a READPROF reads back, field for field; a second BIND before it leaves nothing of the first (R110,
R112, R114, 30_encoding.md R64). -/
def Obligations.BindThenReadprofReadsBack : Prop :=
  ∀ (s : State) (ch : Byte) (p q : TimingProfile), s.Inv → ch.toNat < s.numChannels → s.tracker ch.toNat = .idle →
    ∃ t u v p0 p1 p2, exec (.bind ch p) s = .next t ∧ exec (.bind ch q) t = .next u ∧ exec (.bind ch q) s = .next u ∧
      exec (.readprof ch) u = .next v ∧ v.response = s.response ++ [0x00000001#32, p0, p1, p2] ∧
      profOfWords p0 p1 p2 = q

/-- No command reads or writes the slot of a channel other than its own: changing that slot before the command or after it
comes to the same (R172). RESOLVE has no channel (R97). -/
def Obligations.ChannelsAreIndependent : Prop :=
  ∀ (i : Instr) (s : State) (c : Nat) (v : Slot), instrChannel i ≠ some c →
    exec i (s.setSlot c v) = mapNext (fun t => t.setSlot c v) (exec i s)

/-- No command changes a tracker. RESOLVE, BIND, UNBIND and READPROF make no memory access: whatever host memory holds, they
do the same and leave it as it was (R30, R40, R49). -/
def Obligations.OnlyTranslateReachesMemory : Prop :=
  ∀ (i : Instr) (s : State),
    (∀ t, exec i s = .next t → t.tx = s.tx) ∧
    (isTranslate i = false →
      (∀ t, exec i s = .next t → t.mem = s.mem) ∧
      ∀ m : Memory, exec i { s with mem := m } = mapNext (fun t => { t with mem := m }) (exec i s))

/-! ### Entries -/

/-- The word TRANSLATE writes for a bit is the packing of R130's entry (R62, R63): the duration of the first phase in
[14:0], bit 15 set, the duration of the second in [30:16], bit 31 clear, whatever the bit and the profile (R132). -/
def Obligations.EntryWordLayout : Prop :=
  ∀ (b : Bool) (p : TimingProfile),
    entryWord b p = entryPack (entryOf b p) ∧
    (entryWord b p).extractLsb' 0 15 = (if b then p.highOn else p.lowOn) ∧
    (entryWord b p).getLsbD 15 = true ∧
    (entryWord b p).extractLsb' 16 15 = (if b then p.highOff else p.lowOff) ∧
    (entryWord b p).getLsbD 31 = false

/-- R131: byte i of a sequence gives entries 8i to 8i + 7, most significant bit first; there are 8 entries for each byte. -/
def Obligations.BufferEntriesMsbFirst : Prop :=
  ∀ (bs : List Byte) (p : TimingProfile),
    (encodeBuffer bs p).length = 8 * bs.length ∧
    ∀ (i j : Nat) (b : Byte), bs[i]? = some b → j < 8 →
      (encodeBuffer bs p)[8 * i + j]? = some (entryOf (b.getLsbD (7 - j)) p)

/-- A 32-bit entry write at an address stores the word little-endian in the four bytes from it, leaves every other byte
alone and keeps the canonical form (R42, R44). -/
def Obligations.EntryWritesAreLittleEndian : Prop :=
  ∀ (m : Memory) (a : Nat) (w : Word), m.wf = true → a + 4 ≤ memorySize →
    (m.writeWord a w).wf = true ∧
    (m.writeWord a w).read a = w.extractLsb' 0 8 ∧ (m.writeWord a w).read (a + 1) = w.extractLsb' 8 8 ∧
    (m.writeWord a w).read (a + 2) = w.extractLsb' 16 8 ∧ (m.writeWord a w).read (a + 3) = w.extractLsb' 24 8 ∧
    (m.writeWord a w).readWord a = w ∧
    ∀ x, (x < a ∨ a + 4 ≤ x) → (m.writeWord a w).read x = m.read x

/-! ### TRANSLATE -/

/-- R136: with no context available TRANSLATE responds (0, 0), whatever its other operands; nothing else changes. -/
def Obligations.TranslateWithoutContextGivesZero : Prop :=
  ∀ (s : State) (ch : Byte) (src len dst cap : Word),
    ¬ (ch.toNat < s.numChannels ∧ (s.slot ch.toNat).bound = true) →
    exec (.translate ch src len dst cap) s = .next { s with response := s.response ++ [0#32, 0#32] }

/-- R135: with a capacity below 8, or no source byte left, TRANSLATE responds (0, 0), whatever its address operands and
whether or not the context is available; nothing else changes. -/
def Obligations.TranslateWithoutRoomGivesZero : Prop :=
  ∀ (s : State) (ch : Byte) (src len dst cap : Word), cap.toNat < 8 ∨ len = 0#32 →
    exec (.translate ch src len dst cap) s = .next { s with response := s.response ++ [0#32, 0#32] }

/-- A TRANSLATE on an available channel whose n = min(cap div 8, len) is at least 1 and whose ranges fit answers a next
state: (n, 8n) is responded; entry slot 8i + j holds the entry word of bit 7 - j of source byte i under the channel's
profile; every byte outside the 32n bytes at dst, each source byte among them, reads as before; nothing else changes (R133,
R134, R137; 20_memory.md R41, R42, R43). -/
def Obligations.TranslateWritesTheEntries : Prop :=
  ∀ (s : State) (ch : Byte) (src len dst cap : Word) (n : Nat), s.Inv →
    ch.toNat < s.numChannels → (s.slot ch.toNat).bound = true →
    n = min (cap.toNat / 8) len.toNat → 1 ≤ n → RangesFit src.toNat dst.toNat n →
    ∃ t, exec (.translate ch src len dst cap) s = .next t ∧
      t.response = s.response ++ [BitVec.ofNat 32 n, BitVec.ofNat 32 (8 * n)] ∧
      (∀ i j, i < n → j < 8 → t.mem.readWord (dst.toNat + 4 * (8 * i + j)) =
        entryWord ((s.mem.read (src.toNat + i)).getLsbD (7 - j)) (s.slot ch.toNat).profile) ∧
      (∀ x, (x < dst.toNat ∨ dst.toNat + 32 * n ≤ x) → t.mem.read x = s.mem.read x) ∧
      (∀ i, i < n → t.mem.read (src.toNat + i) = s.mem.read (src.toNat + i)) ∧
      t = { s with mem := t.mem, response := t.response }

/-- The faults of a TRANSLATE that would consume n >= 1 bytes, in the order of the checks: AddressRange, then Misaligned,
then Overlap; each changes nothing but the record of faults (R133, R164, R166; 20_memory.md R45, R46, R47). -/
def Obligations.TranslateFaultsInOrder : Prop :=
  ∀ (s : State) (ch : Byte) (src len dst cap : Word) (n : Nat),
    ch.toNat < s.numChannels → (s.slot ch.toNat).bound = true →
    n = min (cap.toNat / 8) len.toNat → 1 ≤ n →
    ((memorySize < src.toNat + n ∨ memorySize < dst.toNat + 32 * n) →
      exec (.translate ch src len dst cap) s = .next { s with faults := s.faults ++ [.addressRange src dst] }) ∧
    (src.toNat + n ≤ memorySize → dst.toNat + 32 * n ≤ memorySize → dst.toNat % 4 ≠ 0 →
      exec (.translate ch src len dst cap) s = .next { s with faults := s.faults ++ [.misaligned dst] }) ∧
    (src.toNat + n ≤ memorySize → dst.toNat + 32 * n ≤ memorySize → dst.toNat % 4 = 0 →
      src.toNat < dst.toNat + 32 * n → dst.toNat < src.toNat + n →
      exec (.translate ch src len dst cap) s = .next { s with faults := s.faults ++ [.overlap src dst] })

/-- The laws of the counts that 42_translate.md derives from R134 to R136: of every TRANSLATE that responds (CONSUMED,
PRODUCED), PRODUCED = 8 CONSUMED, CONSUMED is at most LEN, PRODUCED at most CAP, and CAP - PRODUCED is at most 7 or CONSUMED =
LEN or the context is unavailable. -/
def Obligations.TranslateCountLaws : Prop :=
  ∀ (s t : State) (ch : Byte) (src len dst cap consumed produced : Word),
    exec (.translate ch src len dst cap) s = .next t → t.response = s.response ++ [consumed, produced] →
    produced.toNat = 8 * consumed.toNat ∧ consumed.toNat ≤ len.toNat ∧ produced.toNat ≤ cap.toNat ∧
      (cap.toNat - produced.toNat ≤ 7 ∨ consumed = len ∨
        ¬ (ch.toNat < s.numChannels ∧ (s.slot ch.toNat).bound = true))

/-- TRANSLATE never reads the inter-frame reset time: changing that field of the channel's profile before the command or
after it comes to the same (R139). -/
def Obligations.TranslateNeverReadsResetTime : Prop :=
  ∀ (s : State) (ch : Byte) (src len dst cap : Word) (r : Tick),
    let change := fun t : State =>
      t.setSlot ch.toNat { t.slot ch.toNat with profile := { (t.slot ch.toNat).profile with reset := r } }
    exec (.translate ch src len dst cap) (change s) =
      mapNext change (exec (.translate ch src len dst cap) s)

/-- TRANSLATE never reads the table or the clock constants: with another parameter set of as many channels it does the same
(R55). -/
def Obligations.TranslateNeverReadsTheTable : Prop :=
  ∀ (s : State) (c : Config) (ch : Byte) (src len dst cap : Word), c.params.numChannels = s.numChannels →
    exec (.translate ch src len dst cap) { s with cfg := c } =
      mapNext (fun t => { t with cfg := c }) (exec (.translate ch src len dst cap) s)

/-- A TRANSLATE repeated at once, with memory and context as the first left them, gives the same counts and writes the same
words: memory stays as the first left it (R133's corner cases, R29). -/
def Obligations.TranslateRepeatedWritesTheSame : Prop :=
  ∀ (s t : State) (ch : Byte) (src len dst cap : Word), s.Inv →
    exec (.translate ch src len dst cap) s = .next t → t.faults = s.faults →
    ∃ u ws, exec (.translate ch src len dst cap) t = .next u ∧ u.mem = t.mem ∧ u.faults = t.faults ∧
      t.response = s.response ++ ws ∧ u.response = t.response ++ ws

/-- Two TRANSLATE commands, on any channels, do not depend on each other's order when neither writes memory the other reads
or writes: both orders leave the same memory and context and give each command the same response (42_translate.md section 3, derived
there from R29 and R133; one TRANSLATE is one step, R48, log entry 14). -/
def Obligations.TwoTranslatesCommute : Prop :=
  ∀ (s : State) (c₁ c₂ : Byte) (src₁ len₁ dst₁ cap₁ src₂ len₂ dst₂ cap₂ : Word), s.Inv →
    (let n₁ := min (cap₁.toNat / 8) len₁.toNat
     let n₂ := min (cap₂.toNat / 8) len₂.toNat
     (dst₁.toNat + 32 * n₁ ≤ src₂.toNat ∨ src₂.toNat + n₂ ≤ dst₁.toNat) ∧
     (dst₂.toNat + 32 * n₂ ≤ src₁.toNat ∨ src₁.toNat + n₁ ≤ dst₂.toNat) ∧
     (dst₁.toNat + 32 * n₁ ≤ dst₂.toNat ∨ dst₂.toNat + 32 * n₂ ≤ dst₁.toNat)) →
    ∃ s₁ s₂ s₁₂ s₂₁ ws₁ ws₂,
      exec (.translate c₁ src₁ len₁ dst₁ cap₁) s = .next s₁ ∧ exec (.translate c₂ src₂ len₂ dst₂ cap₂) s₁ = .next s₁₂ ∧
      exec (.translate c₂ src₂ len₂ dst₂ cap₂) s = .next s₂ ∧ exec (.translate c₁ src₁ len₁ dst₁ cap₁) s₂ = .next s₂₁ ∧
      s₁₂.mem = s₂₁.mem ∧ s₁₂.ctx = s₂₁.ctx ∧
      s₁.response = s.response ++ ws₁ ∧ s₁₂.response = s₁.response ++ ws₂ ∧
      s₂.response = s.response ++ ws₂ ∧ s₂₁.response = s₂.response ++ ws₁

/-! ### A transmission -/

/-- The driver loop of 42_translate.md section 3, whose result the spec derives from R131, R133 and R134: over any calls the driver chooses, whose buffers each fit and keep clear of the source, on a
channel bound to p, the entries handed on, in call order, are the encoding of a prefix of the source bytes; the driver
stands right behind that prefix; the prefix is as long as the capacities allow; no fault is recorded; and the source bytes
and the context are as they were. -/
def Obligations.DriverStreamsTheBuffer : Prop :=
  ∀ (ch : Byte) (ks : List DriverCall) (s : State) (a L : Word), s.Inv →
    ch.toNat < s.numChannels → (s.slot ch.toNat).bound = true → a.toNat + L.toNat ≤ memorySize →
    (∀ k ∈ ks, k.dst.toNat % 4 = 0 ∧ k.dst.toNat + 32 * (k.cap.toNat / 8) ≤ memorySize ∧
      (k.dst.toNat + 32 * (k.cap.toNat / 8) ≤ a.toNat ∨ a.toNat + L.toNat ≤ k.dst.toNat)) →
    let d := driverLoop ch ks { state := s, src := a.toNat, left := L.toNat, entries := [] }
    let n := min L.toNat (ks.map fun k => k.cap.toNat / 8).sum
    d.entries = (encodeBuffer (s.mem.readBytes a.toNat n) (s.slot ch.toNat).profile).map entryPack ∧
      d.left = L.toNat - n ∧ d.src = a.toNat + n ∧
      d.state.faults = s.faults ∧ d.state.ctx = s.ctx ∧
      ∀ i, i < L.toNat → d.state.mem.read (a.toNat + i) = s.mem.read (a.toNat + i)

/-- Progress, which 42_translate.md section 3 derives from R134: when each call offers at least 8 slots and there are as many calls as source bytes, no byte remains
at the end of the driver loop, and all the entries of the buffer have been handed on. -/
def Obligations.DriverLoopEnds : Prop :=
  ∀ (ch : Byte) (ks : List DriverCall) (s : State) (a L : Word), s.Inv →
    ch.toNat < s.numChannels → (s.slot ch.toNat).bound = true → a.toNat + L.toNat ≤ memorySize →
    (∀ k ∈ ks, 8 ≤ k.cap.toNat ∧ k.dst.toNat % 4 = 0 ∧ k.dst.toNat + 32 * (k.cap.toNat / 8) ≤ memorySize ∧
      (k.dst.toNat + 32 * (k.cap.toNat / 8) ≤ a.toNat ∨ a.toNat + L.toNat ≤ k.dst.toNat)) →
    L.toNat ≤ ks.length →
    let d := driverLoop ch ks { state := s, src := a.toNat, left := L.toNat, entries := [] }
    d.left = 0 ∧
      d.entries = (encodeBuffer (s.mem.readBytes a.toNat L.toNat) (s.slot ch.toNat).profile).map entryPack

/-- XLATE_ALL with a capacity of at least 8, a source and an entry region that fit and do not overlap, leaves the whole
region [dst, dst + 32 len) holding the encoding of the buffer, leaves every other byte as it was and records no fault
(30_encoding.md R75, 42_translate.md section 3; log entry 20). -/
def Obligations.XlateAllEncodesTheBuffer : Prop :=
  ∀ (ch : Byte) (src len dst cap : Word) (s : State), s.Inv →
    ch.toNat < s.numChannels → (s.slot ch.toNat).bound = true → 8 ≤ cap.toNat →
    RangesFit src.toNat dst.toNat len.toNat →
    let t := runXlateAll ch src len dst cap s
    t.mem.readWords dst.toNat (8 * len.toNat) =
      (encodeBuffer (s.mem.readBytes src.toNat len.toNat) (s.slot ch.toNat).profile).map entryPack ∧
    (∀ x, (x < dst.toNat ∨ dst.toNat + 32 * len.toNat ≤ x) → t.mem.read x = s.mem.read x) ∧
    t.faults = s.faults

/-- XLATE_ALL with a capacity below 8 stops at once with every byte untranslated: one (0, 0) is responded and nothing else
changes (R75, C4). -/
def Obligations.XlateAllTooSmallStopsAtOnce : Prop :=
  ∀ (ch : Byte) (src len dst cap : Word) (s : State), cap.toNat < 8 →
    runXlateAll ch src len dst cap s = { s with response := s.response ++ [0#32, 0#32] }

/-- INSTALL on an idle channel in range binds the resolved profile, and the response holds its PROF words; nothing else
changes (R75, R115). -/
def Obligations.InstallBindsTheResolvedProfile : Prop :=
  ∀ (ch pid : Byte) (man : Bool) (m : TimingProfile) (s : State), s.Inv →
    ch.toNat < s.numChannels → s.tracker ch.toNat = .idle →
    let p := if man then m else tableProfile s.cfg.params (rowFor s.cfg pid.toNat)
    ∃ t, runInstall ch pid man m s = .next t ∧ t.slot ch.toNat = { bound := true, profile := p } ∧
      (∀ c, c ≠ ch.toNat → t.slot c = s.slot c) ∧ t.response = s.response ++ [profP0 p, profP1 p, profP2 p] ∧
      t = { s with ctx := t.ctx, response := t.response }

/-! ### Host events -/

/-- A host write to an address in no active source range stores the byte; every other byte, and everything else, is as
before (R170). -/
def Obligations.HostWriteStoresTheByte : Prop :=
  ∀ (s : State) (a : Agent) (addr : Word) (b : Byte) (ps : List PortItem), s.Inv →
    s.port = { agent := a, act := .hostWrite addr b } :: ps → s.freeAddress addr →
    ∃ t, step s = .next t ∧ t.mem.read addr.toNat = b ∧ (∀ x, x ≠ addr.toNat → t.mem.read x = s.mem.read x) ∧
      t = { s with port := ps, mem := t.mem }

/-- A host write into the source range of a transmission active on channel c raises HazardViolation(c, addr) and the byte
is not written; nothing but the record of faults changes (R170, R193; with several covering channels, log entry 11). -/
def Obligations.HostWriteInFlightFaults : Prop :=
  ∀ (s : State) (a : Agent) (addr : Word) (b : Byte) (ps : List PortItem) (c : Nat) (base len : Word),
    s.port = { agent := a, act := .hostWrite addr b } :: ps →
    c < s.numChannels → s.tracker c = .active base len → base.toNat ≤ addr.toNat →
    addr.toNat < base.toNat + len.toNat →
    ∃ t, step s = .next t ∧ .hazardViolation c (some addr) ∈ t.faults ∧ t = { s with port := ps, faults := t.faults }

/-- TX_BEGIN: IllegalChannel at or above NUM_CHANNELS; HazardViolation if the channel's tracker is not Idle; else the
tracker becomes Active with the buffer's address and length (R170, R166). TX_END makes the tracker Idle, and has no effect
if it is Idle or out of range (R170). -/
def Obligations.TransmissionEvents : Prop :=
  ∀ (s : State) (a : Agent) (ch : Nat) (base len : Word) (ps : List PortItem), s.Inv →
    (s.port = { agent := a, act := .txBegin ch base len } :: ps →
      (s.numChannels ≤ ch →
        step s = .next { s with port := ps, refusals := s.refusals ++ [.illegalChannel ch] }) ∧
      (ch < s.numChannels → s.tracker ch ≠ .idle →
        step s = .next { s with port := ps, faults := s.faults ++ [.hazardViolation ch none] }) ∧
      (ch < s.numChannels → s.tracker ch = .idle →
        ∃ t, step s = .next t ∧ t.tracker ch = .active base len ∧ (∀ c, c ≠ ch → t.tracker c = s.tracker c) ∧
          t = { s with port := ps, tx := t.tx })) ∧
    (s.port = { agent := a, act := .txEnd ch } :: ps →
      ∃ t, step s = .next t ∧ t.tracker ch = .idle ∧ (∀ c, c ≠ ch → t.tracker c = s.tracker c) ∧
        t = { s with port := ps, tx := t.tx } ∧ (s.tracker ch = .idle → t = { s with port := ps }))

/-- Over every step, whatever is accepted: while a channel's transmission is Active its context slot stays as it is, and a
byte of its source range changes only where a TRANSLATE that was accepted writes its entries, inside the 32 n bytes at its
dst for the n bytes it consumes. The model does not check these writes against other channels' ranges (R170, R193, R194; log
entry 12). -/
def Obligations.InFlightDataIsStable : Prop :=
  ∀ (s t : State) (c : Nat) (base len : Word), s.Inv → step s = .next t → s.tracker c = .active base len →
    t.slot c = s.slot c ∧
    ∀ x, base.toNat ≤ x → x < base.toNat + len.toNat → t.mem.read x ≠ s.mem.read x →
      ∃ a ws ps ch src n dst cap, s.port = { agent := a, act := .command ws } :: ps ∧
        decode ws = .ok (.translate ch src n dst cap) ∧
        dst.toNat ≤ x ∧ x < dst.toNat + 32 * consumedBytes n cap

/-! ### The whole machine -/

/-- Every step keeps the invariant: memory in canonical form, one slot and one tracker for each channel (R20, R21, R30,
R40). -/
def Obligations.StepKeepsTheInvariant : Prop := ∀ s t : State, s.Inv → step s = .next t → t.Inv

/-- The state after reset meets the invariant, for every parameter set. -/
def Obligations.ResetMeetsTheInvariant : Prop := ∀ c : Config, (State.resetWith c).Inv ∧ State.reset.Inv

/-- R31: after reset every channel is unbound and its tracker Idle, no fault is recorded and the refused mark is
clear, for every parameter set; there is one slot and one tracker for each channel. -/
def Obligations.ResetStateOfTheBlock : Prop :=
  ∀ c : Config,
    (∀ ch, ch < c.params.numChannels → ((State.resetWith c).slot ch).bound = false ∧
      (State.resetWith c).tracker ch = .idle) ∧
    (State.resetWith c).ctx.length = c.params.numChannels ∧ (State.resetWith c).tx.length = c.params.numChannels ∧
    (State.resetWith c).faults = [] ∧ (State.resetWith c).refused = false ∧ (State.resetWith c).cfg = c

/-- After reset commands are accepted at once, as 70_reset_and_hazards.md section 1 derives from R31 and R136: RESOLVE
answers the profile, and TRANSLATE on any channel responds (0, 0) whatever its other operands (log entry 10 for the empty
response port). -/
def Obligations.CommandsRunRightAfterReset : Prop :=
  ∀ (c : Config) (ch pid : Byte) (man : Bool) (m : TimingProfile) (src len dst cap : Word),
    (∃ t p0 p1 p2, exec (.resolve pid man m) (State.resetWith c) = .next t ∧ t.response = [p0, p1, p2] ∧
      profOfWords p0 p1 p2 = if man then m else tableProfile c.params (rowFor c pid.toNat)) ∧
    exec (.translate ch src len dst cap) (State.resetWith c) =
      .next { State.resetWith c with response := [0#32, 0#32] }

/-- A power-on reset with no transmission Active puts every slot, tracker and record of LPT into the state of R31, and
leaves host memory, the parameter set and what the two ports hold as they are; while a transmission is Active the model
refuses (R190; log entry 13). -/
def Obligations.PowerOnResetStep : Prop :=
  ∀ (s : State) (a : Agent) (ps : List PortItem), s.port = { agent := a, act := .powerOnReset } :: ps →
    ((∀ c, s.tracker c = .idle) →
      step s = .next { State.resetWith s.cfg with mem := s.mem, port := ps, response := s.response }) ∧
    ((∃ c, s.tracker c ≠ .idle) → step s = .refused .resetDuringActivity)

/-- The parameter set is a constant: no step changes it (R27, R28). -/
def Obligations.ConfigurationIsConstant : Prop := ∀ s t : State, step s = .next t → t.cfg = s.cfg

/-- The fault record and the refused mark are sticky: every step but a power-on reset only adds to them, and nothing is ever
taken back from the response port (R30, R164, R165). -/
def Obligations.RecordsAreSticky : Prop :=
  ∀ s t : State, step s = .next t →
    (∃ ws, t.response = s.response ++ ws) ∧
    (s.noResetNext → (∃ fs, t.faults = s.faults ++ fs) ∧ (∃ rs, t.refusals = s.refusals ++ rs) ∧
      (s.refused = true → t.refused = true))

/-- The state after a faulted command is the state before it plus the record of the fault; the state after a refused command
is the state before it plus the record of the refusal; and a command that gives a response records neither (R168; log entries
7, 8 and 9). -/
def Obligations.FaultedCommandLeavesOnlyItsRecord : Prop :=
  ∀ (i : Instr) (s t : State), exec i s = .next t →
    (t.faults ≠ s.faults → ∃ f, t = { s with faults := s.faults ++ [f] }) ∧
    (t.refusals ≠ s.refusals → ∃ r, t = { s with refusals := s.refusals ++ [r] }) ∧
    (t.response ≠ s.response → t.faults = s.faults ∧ t.refusals = s.refusals)

/-- The profile of an unbound slot is unobservable: two states that differ only in such profiles step alike, to states that
differ only in such profiles, with the same responses and records (R23, R31, I10). -/
def Obligations.StaleProfilesAreUnobservable : Prop :=
  ∀ s t : State, s.observable = t.observable →
    mapNext State.observable (step s) = mapNext State.observable (step t)

/-! ### The host's arithmetic -/

/-- XLATE_ALL with any operands, on any state, changes no byte outside the region [dst, dst + 32 len): its sums are on
unbounded numbers and no pointer comes round to low addresses, where the region passes the top of host memory too (R10, R75;
what it does where a sum is no ARG word is log entry 20). -/
def Obligations.XlateAllWritesOnlyItsRegion : Prop :=
  ∀ (ch : Byte) (src len dst cap : Word) (s : State) (x : Nat), (x < dst.toNat ∨ dst.toNat + 32 * len.toNat ≤ x) →
    (runXlateAll ch src len dst cap s).mem.read x = s.mem.read x
end

