-- ==== Sys2Proof/Laws/State.lean ====
section
/-! SUPPORT. The small lemmas of State's updates: one for each field under each update, and the accessors under the updates
that leave them alone. All hold by rfl, so no proof has to unfold a record update. -/

namespace Sys2Proof.Machine

variable (s : State)

/-! ### setSlot -/

@[simp] theorem State.setSlot_cfg (c : Nat) (v : Slot) : (s.setSlot c v).cfg = s.cfg := rfl
@[simp] theorem State.setSlot_ctx (c : Nat) (v : Slot) : (s.setSlot c v).ctx = s.ctx.set c v := rfl
@[simp] theorem State.setSlot_tx (c : Nat) (v : Slot) : (s.setSlot c v).tx = s.tx := rfl
@[simp] theorem State.setSlot_mem (c : Nat) (v : Slot) : (s.setSlot c v).mem = s.mem := rfl
@[simp] theorem State.setSlot_port (c : Nat) (v : Slot) : (s.setSlot c v).port = s.port := rfl
@[simp] theorem State.setSlot_response (c : Nat) (v : Slot) : (s.setSlot c v).response = s.response := rfl
@[simp] theorem State.setSlot_faults (c : Nat) (v : Slot) : (s.setSlot c v).faults = s.faults := rfl
@[simp] theorem State.setSlot_refusals (c : Nat) (v : Slot) : (s.setSlot c v).refusals = s.refusals := rfl
@[simp] theorem State.setSlot_numChannels (c : Nat) (v : Slot) : (s.setSlot c v).numChannels = s.numChannels := rfl
@[simp] theorem State.setSlot_tracker (c : Nat) (v : Slot) (k : Nat) : (s.setSlot c v).tracker k = s.tracker k := rfl

/-! ### setTracker -/

@[simp] theorem State.setTracker_cfg (c : Nat) (t : Tx) : (s.setTracker c t).cfg = s.cfg := rfl
@[simp] theorem State.setTracker_ctx (c : Nat) (t : Tx) : (s.setTracker c t).ctx = s.ctx := rfl
@[simp] theorem State.setTracker_tx (c : Nat) (t : Tx) : (s.setTracker c t).tx = s.tx.set c t := rfl
@[simp] theorem State.setTracker_mem (c : Nat) (t : Tx) : (s.setTracker c t).mem = s.mem := rfl
@[simp] theorem State.setTracker_port (c : Nat) (t : Tx) : (s.setTracker c t).port = s.port := rfl
@[simp] theorem State.setTracker_response (c : Nat) (t : Tx) : (s.setTracker c t).response = s.response := rfl
@[simp] theorem State.setTracker_faults (c : Nat) (t : Tx) : (s.setTracker c t).faults = s.faults := rfl
@[simp] theorem State.setTracker_refusals (c : Nat) (t : Tx) : (s.setTracker c t).refusals = s.refusals := rfl
@[simp] theorem State.setTracker_numChannels (c : Nat) (t : Tx) : (s.setTracker c t).numChannels = s.numChannels := rfl
@[simp] theorem State.setTracker_slot (c : Nat) (t : Tx) (k : Nat) : (s.setTracker c t).slot k = s.slot k := rfl
@[simp] theorem State.setTracker_avail (c : Nat) (t : Tx) (k : Nat) : (s.setTracker c t).avail k = s.avail k := rfl

/-! ### setMem -/

@[simp] theorem State.setMem_cfg (m : Memory) : (s.setMem m).cfg = s.cfg := rfl
@[simp] theorem State.setMem_ctx (m : Memory) : (s.setMem m).ctx = s.ctx := rfl
@[simp] theorem State.setMem_tx (m : Memory) : (s.setMem m).tx = s.tx := rfl
@[simp] theorem State.setMem_mem (m : Memory) : (s.setMem m).mem = m := rfl
@[simp] theorem State.setMem_port (m : Memory) : (s.setMem m).port = s.port := rfl
@[simp] theorem State.setMem_response (m : Memory) : (s.setMem m).response = s.response := rfl
@[simp] theorem State.setMem_faults (m : Memory) : (s.setMem m).faults = s.faults := rfl
@[simp] theorem State.setMem_refusals (m : Memory) : (s.setMem m).refusals = s.refusals := rfl
@[simp] theorem State.setMem_numChannels (m : Memory) : (s.setMem m).numChannels = s.numChannels := rfl
@[simp] theorem State.setMem_slot (m : Memory) (k : Nat) : (s.setMem m).slot k = s.slot k := rfl
@[simp] theorem State.setMem_avail (m : Memory) (k : Nat) : (s.setMem m).avail k = s.avail k := rfl
@[simp] theorem State.setMem_tracker (m : Memory) (k : Nat) : (s.setMem m).tracker k = s.tracker k := rfl

/-! ### respond -/

@[simp] theorem State.respond_cfg (ws : List Word) : (s.respond ws).cfg = s.cfg := rfl
@[simp] theorem State.respond_ctx (ws : List Word) : (s.respond ws).ctx = s.ctx := rfl
@[simp] theorem State.respond_tx (ws : List Word) : (s.respond ws).tx = s.tx := rfl
@[simp] theorem State.respond_mem (ws : List Word) : (s.respond ws).mem = s.mem := rfl
@[simp] theorem State.respond_port (ws : List Word) : (s.respond ws).port = s.port := rfl
@[simp] theorem State.respond_response (ws : List Word) : (s.respond ws).response = s.response ++ ws := rfl
@[simp] theorem State.respond_faults (ws : List Word) : (s.respond ws).faults = s.faults := rfl
@[simp] theorem State.respond_refusals (ws : List Word) : (s.respond ws).refusals = s.refusals := rfl
@[simp] theorem State.respond_numChannels (ws : List Word) : (s.respond ws).numChannels = s.numChannels := rfl
@[simp] theorem State.respond_slot (ws : List Word) (k : Nat) : (s.respond ws).slot k = s.slot k := rfl
@[simp] theorem State.respond_avail (ws : List Word) (k : Nat) : (s.respond ws).avail k = s.avail k := rfl
@[simp] theorem State.respond_tracker (ws : List Word) (k : Nat) : (s.respond ws).tracker k = s.tracker k := rfl

/-! ### raise -/

@[simp] theorem State.raise_cfg (f : ModelFault) : (s.raise f).cfg = s.cfg := rfl
@[simp] theorem State.raise_ctx (f : ModelFault) : (s.raise f).ctx = s.ctx := rfl
@[simp] theorem State.raise_tx (f : ModelFault) : (s.raise f).tx = s.tx := rfl
@[simp] theorem State.raise_mem (f : ModelFault) : (s.raise f).mem = s.mem := rfl
@[simp] theorem State.raise_port (f : ModelFault) : (s.raise f).port = s.port := rfl
@[simp] theorem State.raise_response (f : ModelFault) : (s.raise f).response = s.response := rfl
@[simp] theorem State.raise_faults (f : ModelFault) : (s.raise f).faults = s.faults ++ [f] := rfl
@[simp] theorem State.raise_refusals (f : ModelFault) : (s.raise f).refusals = s.refusals := rfl
@[simp] theorem State.raise_numChannels (f : ModelFault) : (s.raise f).numChannels = s.numChannels := rfl
@[simp] theorem State.raise_slot (f : ModelFault) (k : Nat) : (s.raise f).slot k = s.slot k := rfl
@[simp] theorem State.raise_avail (f : ModelFault) (k : Nat) : (s.raise f).avail k = s.avail k := rfl
@[simp] theorem State.raise_tracker (f : ModelFault) (k : Nat) : (s.raise f).tracker k = s.tracker k := rfl

/-! ### refuse -/

@[simp] theorem State.refuse_cfg (r : CommandRefusal) : (s.refuse r).cfg = s.cfg := rfl
@[simp] theorem State.refuse_ctx (r : CommandRefusal) : (s.refuse r).ctx = s.ctx := rfl
@[simp] theorem State.refuse_tx (r : CommandRefusal) : (s.refuse r).tx = s.tx := rfl
@[simp] theorem State.refuse_mem (r : CommandRefusal) : (s.refuse r).mem = s.mem := rfl
@[simp] theorem State.refuse_port (r : CommandRefusal) : (s.refuse r).port = s.port := rfl
@[simp] theorem State.refuse_response (r : CommandRefusal) : (s.refuse r).response = s.response := rfl
@[simp] theorem State.refuse_faults (r : CommandRefusal) : (s.refuse r).faults = s.faults := rfl
@[simp] theorem State.refuse_refusals (r : CommandRefusal) : (s.refuse r).refusals = s.refusals ++ [r] := rfl
@[simp] theorem State.refuse_numChannels (r : CommandRefusal) : (s.refuse r).numChannels = s.numChannels := rfl
@[simp] theorem State.refuse_slot (r : CommandRefusal) (k : Nat) : (s.refuse r).slot k = s.slot k := rfl
@[simp] theorem State.refuse_avail (r : CommandRefusal) (k : Nat) : (s.refuse r).avail k = s.avail k := rfl
@[simp] theorem State.refuse_tracker (r : CommandRefusal) (k : Nat) : (s.refuse r).tracker k = s.tracker k := rfl

/-! ### setPort -/

@[simp] theorem State.setPort_cfg (ps : List PortItem) : (s.setPort ps).cfg = s.cfg := rfl
@[simp] theorem State.setPort_ctx (ps : List PortItem) : (s.setPort ps).ctx = s.ctx := rfl
@[simp] theorem State.setPort_tx (ps : List PortItem) : (s.setPort ps).tx = s.tx := rfl
@[simp] theorem State.setPort_mem (ps : List PortItem) : (s.setPort ps).mem = s.mem := rfl
@[simp] theorem State.setPort_port (ps : List PortItem) : (s.setPort ps).port = ps := rfl
@[simp] theorem State.setPort_response (ps : List PortItem) : (s.setPort ps).response = s.response := rfl
@[simp] theorem State.setPort_faults (ps : List PortItem) : (s.setPort ps).faults = s.faults := rfl
@[simp] theorem State.setPort_refusals (ps : List PortItem) : (s.setPort ps).refusals = s.refusals := rfl
@[simp] theorem State.setPort_numChannels (ps : List PortItem) : (s.setPort ps).numChannels = s.numChannels := rfl
@[simp] theorem State.setPort_slot (ps : List PortItem) (k : Nat) : (s.setPort ps).slot k = s.slot k := rfl
@[simp] theorem State.setPort_avail (ps : List PortItem) (k : Nat) : (s.setPort ps).avail k = s.avail k := rfl
@[simp] theorem State.setPort_tracker (ps : List PortItem) (k : Nat) : (s.setPort ps).tracker k = s.tracker k := rfl

end Sys2Proof.Machine
end

