-- ==== Sys2Proof/Laws/Channels.lean ====
section
/-! SUPPORT. Context slots and trackers under their updates, availability, and the channels whose active range holds an address. -/

namespace Sys2Proof.Machine

theorem State.setSlot_slot_same {s : State} {c : Nat} (v : Slot) (h : c < s.ctx.length) : (s.setSlot c v).slot c = v := by
  simp [State.slot, State.setSlot, h]

theorem State.setSlot_slot_other {s : State} {c k : Nat} (v : Slot) (h : k ≠ c) : (s.setSlot c v).slot k = s.slot k := by
  simp [State.slot, State.setSlot, Ne.symm h]

theorem State.setTracker_tracker_same {s : State} {c : Nat} (t : Tx) (h : c < s.tx.length) :
    (s.setTracker c t).tracker c = t := by
  simp [State.tracker, State.setTracker, h]

theorem State.setTracker_tracker_other {s : State} {c k : Nat} (t : Tx) (h : k ≠ c) :
    (s.setTracker c t).tracker k = s.tracker k := by
  simp [State.tracker, State.setTracker, Ne.symm h]

/-- Writing a slot's own value changes nothing. -/
theorem State.setSlot_self (s : State) (c : Nat) : s.setSlot c (s.slot c) = s := by
  have : s.ctx.set c (s.slot c) = s.ctx := by
    by_cases h : c < s.ctx.length
    · simp [State.slot, List.getElem?_eq_getElem h]
    · rw [List.set_eq_of_length_le (by omega)]
  simp [State.setSlot, this]

/-- Writing a slot twice leaves the second value. -/
theorem State.setSlot_setSlot_same (s : State) (c : Nat) (v w : Slot) : (s.setSlot c v).setSlot c w = s.setSlot c w := by
  simp [State.setSlot]

/-- Slots of different channels are written independently. -/
theorem State.setSlot_comm (s : State) {c k : Nat} (v w : Slot) (h : c ≠ k) :
    (s.setSlot c v).setSlot k w = (s.setSlot k w).setSlot c v := by
  simp [State.setSlot, List.set_comm _ _ h]

theorem State.avail_iff {s : State} {c : Nat} : s.avail c = true ↔ c < s.numChannels ∧ (s.slot c).bound = true := by
  simp [State.avail]

theorem State.avail_setSlot_other {s : State} {c k : Nat} (v : Slot) (h : k ≠ c) :
    (s.setSlot c v).avail k = s.avail k := by
  rw [State.avail, State.avail, State.setSlot_slot_other v h]
  rfl

/-- The covers test in the words of R170. -/
theorem Tx.covers_iff {t : Tx} {a : Word} : t.covers a = true ↔
    ∃ base len, t = .active base len ∧ base.toNat ≤ a.toNat ∧ a.toNat < base.toNat + len.toNat := by
  cases t <;> simp [Tx.covers]

theorem State.mem_coveringChannels {s : State} {a : Word} {c : Nat} :
    c ∈ s.coveringChannels a ↔ c < s.numChannels ∧ (s.tracker c).covers a = true := by
  simp [State.coveringChannels]

theorem State.coveringChannels_eq_nil {s : State} {a : Word} :
    s.coveringChannels a = [] ↔ ∀ c, c < s.numChannels → (s.tracker c).covers a = false := by
  simp [State.coveringChannels, List.filter_eq_nil_iff]

/-- A tracker that is not Idle is one of the list. -/
theorem State.tracker_active_lt {s : State} {c : Nat} {base len : Word} (h : s.tracker c = .active base len) :
    c < s.tx.length := by
  by_contra hc
  simp [State.tracker, List.getElem?_eq_none (Nat.le_of_not_lt hc)] at h

/-- No transmission is Active exactly when every tracker is Idle (R190). -/
theorem State.anyActive_eq_false {s : State} : s.anyActive = false ↔ ∀ c, s.tracker c = .idle := by
  simp only [State.anyActive, List.any_eq_false, bne_iff_ne, ne_eq, Decidable.not_not, State.tracker]
  constructor
  · intro h c
    by_cases hc : c < s.tx.length
    · simpa [hc] using h _ (List.getElem_mem hc)
    · simp [List.getElem?_eq_none (Nat.le_of_not_lt hc)]
  · intro h t ht
    obtain ⟨n, hn, rfl⟩ := List.getElem_of_mem ht
    simpa [hn] using h n

end Sys2Proof.Machine
end

