-- ==== Sys2Proof/Laws/Decode.lean ====
section
/-! SUPPORT. The fields of the words the encoder builds, and the words rebuilt from their fields (30_encoding.md R61, R64). -/

namespace Sys2Proof

/-! ### The header word -/

/-- The bits of a header word. -/
theorem getLsbD_hdrWord (opc ch pid : Byte) (man : Bool) (i : Nat) :
    (hdrWord opc ch pid man).getLsbD i =
      if i < 8 then opc.getLsbD i else if i < 16 then ch.getLsbD (i - 8)
      else if i < 24 then pid.getLsbD (i - 16) else decide (i = 24) && man := by
  simp only [hdrWord, BitVec.getLsbD_or, BitVec.getLsbD_setWidth, BitVec.getLsbD_shiftLeft]
  by_cases h1 : i < 8
  · simp [h1, show i < 32 by omega, show i < 16 by omega, show i < 24 by omega]
  · by_cases h2 : i < 16
    · simp [h1, h2, BitVec.getLsbD_of_ge opc i (by omega), show i < 32 by omega, show i - 8 < 32 by omega,
        show i < 24 by omega]
    · by_cases h3 : i < 24
      · simp [h1, h2, h3, BitVec.getLsbD_of_ge opc i (by omega), BitVec.getLsbD_of_ge ch (i - 8) (by omega),
          show i < 32 by omega, show i - 16 < 32 by omega]
      · simp only [h1, h2, h3, BitVec.getLsbD_of_ge opc i (by omega), BitVec.getLsbD_of_ge ch (i - 8) (by omega),
          BitVec.getLsbD_of_ge pid (i - 16) (by omega), if_false]
        by_cases h4 : i = 24
        · subst h4; cases man <;> simp
        · simp [h4, BitVec.getLsbD_ofBool, show ¬ i - 24 = 0 by omega]

@[simp] theorem hdrOpc_hdrWord (opc ch pid : Byte) (man : Bool) : hdrOpc (hdrWord opc ch pid man) = opc := by
  apply BitVec.eq_of_getLsbD_eq
  intro i hi
  simp only [hdrOpc, BitVec.getLsbD_extractLsb', getLsbD_hdrWord, Nat.zero_add]
  simp [hi]

@[simp] theorem hdrCh_hdrWord (opc ch pid : Byte) (man : Bool) : hdrCh (hdrWord opc ch pid man) = ch := by
  apply BitVec.eq_of_getLsbD_eq
  intro i hi
  simp only [hdrCh, BitVec.getLsbD_extractLsb', getLsbD_hdrWord]
  simp [hi, show ¬ 8 + i < 8 by omega, show 8 + i < 16 by omega]

@[simp] theorem hdrPid_hdrWord (opc ch pid : Byte) (man : Bool) : hdrPid (hdrWord opc ch pid man) = pid := by
  apply BitVec.eq_of_getLsbD_eq
  intro i hi
  simp only [hdrPid, BitVec.getLsbD_extractLsb', getLsbD_hdrWord]
  simp [hi, show ¬ 16 + i < 8 by omega, show ¬ 16 + i < 16 by omega, show 16 + i < 24 by omega]

@[simp] theorem hdrMan_hdrWord (opc ch pid : Byte) (man : Bool) : hdrMan (hdrWord opc ch pid man) = man := by
  rw [hdrMan, getLsbD_hdrWord]
  simp

@[simp] theorem hdrRsv_hdrWord (opc ch pid : Byte) (man : Bool) : hdrRsv (hdrWord opc ch pid man) = 0#7 := by
  apply BitVec.eq_of_getLsbD_eq
  intro i hi
  simp only [hdrRsv, BitVec.getLsbD_extractLsb', getLsbD_hdrWord]
  simp [show ¬ 25 + i < 8 by omega, show ¬ 25 + i < 16 by omega, show ¬ 25 + i < 24 by omega,
    show ¬ 25 + i = 24 by omega]

/-- The header without identifier and manual flag has bits [24:16] clear. -/
@[simp] theorem hdrUnused_hdrWord (opc ch : Byte) : (hdrWord opc ch 0#8 false).extractLsb' 16 9 = 0#9 := by
  apply BitVec.eq_of_getLsbD_eq
  intro i hi
  simp only [BitVec.getLsbD_extractLsb', getLsbD_hdrWord]
  simp [show ¬ 16 + i < 8 by omega, show ¬ 16 + i < 16 by omega]

/-- A header word with RSV clear is rebuilt from its fields. -/
theorem hdrWord_fields {h : Word} (hr : hdrRsv h = 0#7) : hdrWord (hdrOpc h) (hdrCh h) (hdrPid h) (hdrMan h) = h := by
  have hbit : ∀ i, i < 7 → h.getLsbD (25 + i) = false := by
    intro i hi
    have := congrArg (fun v => v.getLsbD i) hr
    simpa [hdrRsv, hi] using this
  apply BitVec.eq_of_getLsbD_eq
  intro i hi
  rw [getLsbD_hdrWord]
  simp only [hdrOpc, hdrCh, hdrPid, hdrMan, BitVec.getLsbD_extractLsb']
  by_cases h1 : i < 8
  · simp [h1]
  · by_cases h2 : i < 16
    · simp [h1, h2, show i - 8 < 8 by omega, show 8 + (i - 8) = i by omega]
    · by_cases h3 : i < 24
      · simp [h1, h2, h3, show i - 16 < 8 by omega, show 16 + (i - 16) = i by omega]
      · by_cases h4 : i = 24
        · subst h4; simp
        · have := hbit (i - 25) (by omega)
          rw [show 25 + (i - 25) = i by omega] at this
          simp [h1, h2, h3, h4, this]

/-- Bits [24:16] are MAN and PID. -/
theorem unused_fields {h : Word} (hu : h.extractLsb' 16 9 = 0#9) : hdrPid h = 0#8 ∧ hdrMan h = false := by
  have hbit : ∀ i, i < 9 → h.getLsbD (16 + i) = false := by
    intro i hi
    have := congrArg (fun v => v.getLsbD i) hu
    simpa [hi] using this
  refine ⟨?_, hbit 8 (by omega)⟩
  apply BitVec.eq_of_getLsbD_eq
  intro i hi
  simp [hdrPid, hi, hbit i (by omega)]

/-! ### The PROF words -/

/-- The bits of a word that holds two tick fields, at [14:0] and [30:16]. -/
theorem getLsbD_pairWord (a b : Tick) (i : Nat) :
    (b.setWidth 32 ||| (a.setWidth 32 <<< 16) : Word).getLsbD i =
      if i < 15 then b.getLsbD i else decide (16 ≤ i) && a.getLsbD (i - 16) := by
  simp only [BitVec.getLsbD_or, BitVec.getLsbD_setWidth, BitVec.getLsbD_shiftLeft]
  by_cases h1 : i < 15
  · simp [h1, show i < 32 by omega, show i < 16 by omega]
  · rw [BitVec.getLsbD_of_ge b i (by omega)]
    by_cases h2 : i < 16
    · simp [h1, h2]
    · by_cases h3 : i < 32
      · simp [h1, h2, h3, show i - 16 < 32 by omega, show 16 ≤ i by omega]
      · simp [h1, h3, BitVec.getLsbD_of_ge a (i - 16) (by omega)]

theorem pairWord_low (a b : Tick) : (b.setWidth 32 ||| (a.setWidth 32 <<< 16) : Word).extractLsb' 0 15 = b := by
  apply BitVec.eq_of_getLsbD_eq
  intro i hi
  simp only [BitVec.getLsbD_extractLsb', getLsbD_pairWord]
  simp [hi]

theorem pairWord_high (a b : Tick) : (b.setWidth 32 ||| (a.setWidth 32 <<< 16) : Word).extractLsb' 16 15 = a := by
  apply BitVec.eq_of_getLsbD_eq
  intro i hi
  simp only [BitVec.getLsbD_extractLsb', getLsbD_pairWord]
  simp [hi, show ¬ 16 + i < 15 by omega]

@[simp] theorem profOfWords_profWords (p : TimingProfile) : profOfWords (profP0 p) (profP1 p) (profP2 p) = p := by
  have resetField : (profP2 p).extractLsb' 0 15 = p.reset := by
    apply BitVec.eq_of_getLsbD_eq
    intro i hi
    simp only [profP2, BitVec.getLsbD_extractLsb', BitVec.getLsbD_setWidth]
    simp [hi, show i < 32 by omega]
  simp only [profOfWords, resetField, profP0, profP1, pairWord_low, pairWord_high]

@[simp] theorem profLegal_profWords (p : TimingProfile) : profLegal (profP0 p) (profP1 p) (profP2 p) = true := by
  have resetTop : (profP2 p).extractLsb' 15 17 = 0#17 := by
    apply BitVec.eq_of_getLsbD_eq
    intro i hi
    simp only [profP2, BitVec.getLsbD_extractLsb', BitVec.getLsbD_setWidth]
    simp
  simp only [profLegal, resetTop, profP0, profP1, getLsbD_pairWord]
  simp

/-- A word whose bits 15 and 31 are clear is rebuilt from its two tick fields. -/
theorem pairWord_fields {w : Word} (h15 : w.getLsbD 15 = false) (h31 : w.getLsbD 31 = false) :
    ((w.extractLsb' 0 15).setWidth 32 ||| ((w.extractLsb' 16 15).setWidth 32 <<< 16) : Word) = w := by
  apply BitVec.eq_of_getLsbD_eq
  intro i hi
  rw [getLsbD_pairWord]
  simp only [BitVec.getLsbD_extractLsb']
  by_cases h1 : i < 15
  · simp [h1]
  · by_cases h2 : i = 15
    · subst h2; rw [h15]; simp
    · by_cases h3 : i < 31
      · simp [h1, show i - 16 < 15 by omega, show 16 ≤ i by omega, show 16 + (i - 16) = i by omega]
      · have : i = 31 := by omega
        subst this; rw [h31]; simp

/-- A word whose bits [31:15] are clear is rebuilt from its tick field. -/
theorem tickWord_fields {w : Word} (h : w.extractLsb' 15 17 = 0#17) : ((w.extractLsb' 0 15).setWidth 32 : Word) = w := by
  have hbit : ∀ i, i < 17 → w.getLsbD (15 + i) = false := by
    intro i hi
    have := congrArg (fun v => v.getLsbD i) h
    simpa [hi] using this
  apply BitVec.eq_of_getLsbD_eq
  intro i hi
  simp only [BitVec.getLsbD_setWidth, BitVec.getLsbD_extractLsb']
  by_cases h1 : i < 15
  · simp [h1, hi]
  · have := hbit (i - 15) (by omega)
    rw [show 15 + (i - 15) = i by omega] at this
    rw [this]; simp [h1]

/-- Legal PROF words are rebuilt from the profile they carry. -/
theorem profWords_profOfWords {p0 p1 p2 : Word} (h : profLegal p0 p1 p2 = true) :
    profWords (profOfWords p0 p1 p2) = [p0, p1, p2] := by
  simp only [profLegal, Bool.and_eq_true, Bool.not_eq_true', beq_iff_eq] at h
  obtain ⟨⟨⟨⟨a, b⟩, c⟩, d⟩, e⟩ := h
  simp only [profWords, profP0, profP1, profP2, profOfWords]
  rw [pairWord_fields a b, pairWord_fields c d, tickWord_fields e]

/-! ### The opcode map -/

@[simp] theorem opcodeOf_opcodeByte (o : Opcode) : opcodeOf (opcodeByte o) = some o := by
  cases o <;> rfl

/-- The opcode map read backwards. -/
theorem opcodeOf_eq_some {b : Byte} {o : Opcode} (h : opcodeOf b = some o) : b = opcodeByte o := by
  unfold opcodeOf at h
  repeat' split at h
  all_goals first
    | (cases h; assumption)
    | cases h

/-- Reserved opcodes are 0x00 and 0x06 to 0xFF (R70). -/
theorem opcodeOf_eq_none {b : Byte} : opcodeOf b = none ↔ b = 0#8 ∨ 6 ≤ b.toNat := by
  revert b
  decide

/-- Two words are equal when their fields OPC, CH, [24:16] and RSV are (R61). -/
theorem header_eq_iff (x y : Word) : x = y ↔ x.extractLsb' 0 8 = y.extractLsb' 0 8 ∧ x.extractLsb' 8 8 = y.extractLsb' 8 8 ∧
    x.extractLsb' 16 9 = y.extractLsb' 16 9 ∧ x.extractLsb' 25 7 = y.extractLsb' 25 7 := by
  constructor
  · rintro rfl; simp
  · rintro ⟨a, b, c, d⟩
    have f : ∀ (k n : Nat), x.extractLsb' k n = y.extractLsb' k n → ∀ i, i < n → x.getLsbD (k+i) = y.getLsbD (k+i) := by
      intro k n e i hi
      have := congrArg (fun v => v.getLsbD i) e
      simpa [hi] using this
    apply BitVec.eq_of_getLsbD_eq
    intro i hi
    by_cases h1 : i < 8
    · simpa using f 0 8 a i h1
    · by_cases h2 : i < 16
      · simpa [show 8 + (i-8) = i by omega] using f 8 8 b (i-8) (by omega)
      · by_cases h3 : i < 25
        · simpa [show 16 + (i-16) = i by omega] using f 16 9 c (i-16) (by omega)
        · simpa [show 25 + (i-25) = i by omega] using f 25 7 d (i-25) (by omega)

end Sys2Proof
end

