-- ==== Sys2Proof/Laws/Events.lean ====
section
/-! SUPPORT. What each host interaction does, and what a step does, said once. -/

namespace Sys2Proof.Machine

/-- Raising a list of faults appends them to the record, in order. -/
theorem foldl_raise (g : Nat → ModelFault) (cs : List Nat) (s : State) :
    cs.foldl (fun t c => t.raise (g c)) s = { s with faults := s.faults ++ cs.map g } := by
  induction cs generalizing s with
  | nil => simp
  | cons c cs ih => rw [List.foldl_cons, ih]; simp [State.raise]

/-- A host write stores its byte, or records one hazard for each covering channel and stores nothing (R170). -/
theorem hostWrite_cases (addr : Word) (b : Byte) (s : State) :
    (s.coveringChannels addr = [] ∧ hostWrite addr b s = s.setMem (s.mem.write addr.toNat b)) ∨
    (s.coveringChannels addr ≠ [] ∧ hostWrite addr b s =
      { s with faults := s.faults ++ (s.coveringChannels addr).map fun c => .hazardViolation c (some addr) }) := by
  unfold hostWrite
  cases h : s.coveringChannels addr with
  | nil => exact .inl ⟨rfl, rfl⟩
  | cons c cs => exact .inr ⟨by simp, foldl_raise (fun k => .hazardViolation k (some addr)) (c :: cs) s⟩

/-- TX_BEGIN refuses, records a hazard, or starts the transmission (R170). -/
theorem txBegin_cases (ch : Nat) (base len : Word) (s : State) :
    (s.numChannels ≤ ch ∧ txBegin ch base len s = s.refuse (.illegalChannel ch)) ∨
    (ch < s.numChannels ∧ s.tracker ch ≠ .idle ∧ txBegin ch base len s = s.raise (.hazardViolation ch none)) ∨
    (ch < s.numChannels ∧ s.tracker ch = .idle ∧ txBegin ch base len s = s.setTracker ch (.active base len)) := by
  unfold txBegin
  split
  · exact .inl ⟨‹_›, rfl⟩
  · split
    · exact .inr (.inl ⟨by omega, ‹_›, rfl⟩)
    · rename_i h1 h2
      exact .inr (.inr ⟨by omega, by simpa using h2, rfl⟩)

/-- BIND refuses, records a hazard, or writes the whole slot (R110). -/
theorem execBind_cases (ch : Byte) (p : TimingProfile) (s : State) :
    (s.numChannels ≤ ch.toNat ∧ execBind ch p s = .next (s.refuse (.illegalChannel ch.toNat))) ∨
    (ch.toNat < s.numChannels ∧ s.tracker ch.toNat ≠ .idle ∧
      execBind ch p s = .next (s.raise (.hazardViolation ch.toNat none))) ∨
    (ch.toNat < s.numChannels ∧ s.tracker ch.toNat = .idle ∧
      execBind ch p s = .next (s.setSlot ch.toNat { bound := true, profile := p })) := by
  unfold execBind
  split
  · exact .inl ⟨‹_›, rfl⟩
  · split
    · exact .inr (.inl ⟨by omega, ‹_›, rfl⟩)
    · rename_i h1 h2
      exact .inr (.inr ⟨by omega, by simpa using h2, rfl⟩)

/-- UNBIND does nothing, records a hazard, or clears the slot's bound bit (R111). -/
theorem execUnbind_cases (ch : Byte) (s : State) :
    (s.numChannels ≤ ch.toNat ∧ execUnbind ch s = .next s) ∨
    (ch.toNat < s.numChannels ∧ s.tracker ch.toNat ≠ .idle ∧
      execUnbind ch s = .next (s.raise (.hazardViolation ch.toNat none))) ∨
    (ch.toNat < s.numChannels ∧ s.tracker ch.toNat = .idle ∧
      execUnbind ch s = .next (s.setSlot ch.toNat { s.slot ch.toNat with bound := false })) := by
  unfold execUnbind
  split
  · exact .inl ⟨‹_›, rfl⟩
  · split
    · exact .inr (.inl ⟨by omega, ‹_›, rfl⟩)
    · rename_i h1 h2
      exact .inr (.inr ⟨by omega, by simpa using h2, rfl⟩)

/-- A power-on reset is refused while a transmission is Active, and resets LPT else (R190). -/
theorem powerOnReset_cases (s : State) :
    (s.anyActive = true ∧ powerOnReset s = .refused .resetDuringActivity) ∨
    (s.anyActive = false ∧ powerOnReset s =
      .next { State.resetWith s.cfg with mem := s.mem, port := s.port, response := s.response }) := by
  unfold powerOnReset
  cases h : s.anyActive
  · exact .inr ⟨rfl, by simp⟩
  · exact .inl ⟨rfl, by simp⟩

/-- A step with nothing pending. -/
theorem step_nil {s : State} (h : s.port = []) : step s = .next s := by
  unfold step acceptNext
  rw [h]

/-- A step with an interaction pending. -/
theorem step_cons {s : State} {p : PortItem} {ps : List PortItem} (h : s.port = p :: ps) :
    step s = runInteraction p.act (s.setPort ps) := by
  unfold step acceptNext
  rw [h]

/-- A frame of words runs the command it decodes to. -/
theorem runFrame_ok {ws : List Word} {i : Instr} (h : decode ws = .ok i) (s : State) : runFrame ws s = exec i s := by
  rw [runFrame, h]

/-- A frame of words with an illegal header or PROF word is recorded as refused. -/
theorem runFrame_illegal {ws : List Word} {h : Word} (hd : decode ws = .error (.illegalCommand h)) (s : State) :
    runFrame ws s = .next (s.refuse (.illegalCommand h)) := by
  rw [runFrame, hd]

/-- A frame of words that is no whole command stops the model. -/
theorem runFrame_notWhole {ws : List Word} (hd : decode ws = .error .notWhole) (s : State) :
    runFrame ws s = .fault .commandNotWhole := by
  rw [runFrame, hd]

end Sys2Proof.Machine
end

