-- ==== Sys2Proof/Laws/Memory.lean ====
section
/-! SUPPORT. The laws of host memory: a read after a write, what a write leaves alone, that every operation keeps the
canonical form, and that canonical memories with equal bytes are equal. -/

namespace Sys2Proof.Machine

/-- The size of host memory as a numeral, for `omega`. -/
theorem memorySize_eq : memorySize = 4294967296 := rfl

/-! ### The canonical form -/

/-- Every address listed is above `lo`. -/
def Memory.above (m : Memory) (lo : Nat) : Prop := ∀ e ∈ m, lo < e.1

theorem Memory.wf_cons {a : Nat} {b : Byte} {m : Memory} :
    Memory.wf ((a, b) :: m) = true ↔ a < memorySize ∧ b ≠ 0#8 ∧ m.wf = true ∧ m.above a := by
  induction m generalizing a b with
  | nil => simp [Memory.wf, Memory.above]
  | cons e rest ih =>
    obtain ⟨k, c⟩ := e
    have hk := @ih k c
    simp only [Memory.wf, Bool.and_eq_true, decide_eq_true_eq, bne_iff_ne, Memory.above, List.mem_cons]
    constructor
    · rintro ⟨⟨hak, hb⟩, hr⟩
      obtain ⟨h1, h2, h3, h4⟩ := hk.1 hr
      refine ⟨by omega, hb, hr, ?_⟩
      rintro e (rfl | he)
      · exact hak
      · exact Nat.lt_trans hak (h4 e he)
    · rintro ⟨-, hb, hr, hab⟩
      exact ⟨⟨hab _ (Or.inl rfl), hb⟩, hr⟩

theorem Memory.read_above {m : Memory} {lo a : Nat} (h : m.above lo) (ha : a ≤ lo) : m.read a = 0#8 := by
  induction m with
  | nil => rfl
  | cons e rest ih =>
    obtain ⟨k, c⟩ := e
    have hk : lo < k := h (k, c) (by simp)
    rw [Memory.read, if_neg (by omega)]
    exact ih fun e he => h e (by simp [he])

theorem Memory.read_outside {m : Memory} (h : m.wf = true) {a : Nat} (ha : memorySize ≤ a) : m.read a = 0#8 := by
  induction m with
  | nil => rfl
  | cons e rest ih =>
    obtain ⟨k, c⟩ := e
    obtain ⟨hk, -, hr, -⟩ := Memory.wf_cons.1 h
    rw [Memory.read, if_neg (by omega)]
    exact ih hr

theorem Memory.above_write {m : Memory} {lo a : Nat} {b : Byte} (h : m.above lo) (ha : lo < a) :
    (m.write a b).above lo := by
  induction m with
  | nil =>
    intro e he
    simp only [Memory.write] at he
    split at he
    · cases he
    · rw [List.mem_singleton.1 he]; exact ha
  | cons e rest ih =>
    obtain ⟨k, c⟩ := e
    have hk : lo < k := h (k, c) (by simp)
    have hrest : Memory.above rest lo := fun e he => h e (by simp [he])
    intro e he
    simp only [Memory.write] at he
    split at he
    · split at he
      · exact h e he
      · rcases List.mem_cons.1 he with rfl | he
        · exact ha
        · exact h e he
    · split at he
      · split at he
        · exact hrest e he
        · rcases List.mem_cons.1 he with rfl | he
          · exact ha
          · exact hrest e he
      · rcases List.mem_cons.1 he with rfl | he
        · exact hk
        · exact ih hrest e he

theorem Memory.write_wf {m : Memory} {a : Nat} (b : Byte) (h : m.wf = true) (ha : a < memorySize) :
    (m.write a b).wf = true := by
  induction m with
  | nil =>
    simp only [Memory.write]
    split
    · rfl
    · exact Memory.wf_cons.2 ⟨ha, ‹_›, rfl, by simp [Memory.above]⟩
  | cons e rest ih =>
    obtain ⟨k, c⟩ := e
    obtain ⟨hk, hc, hr, hab⟩ := Memory.wf_cons.1 h
    simp only [Memory.write]
    split
    · split
      · exact h
      · refine Memory.wf_cons.2 ⟨ha, ‹_›, h, ?_⟩
        intro e he
        rcases List.mem_cons.1 he with rfl | he
        · assumption
        · exact Nat.lt_trans ‹_› (hab e he)
    · split
      · subst_vars
        split
        · exact hr
        · exact Memory.wf_cons.2 ⟨ha, ‹_›, hr, hab⟩
      · exact Memory.wf_cons.2 ⟨hk, hc, ih hr, Memory.above_write hab (by omega)⟩

/-! ### Reads after a write -/

theorem Memory.read_write_other {m : Memory} {a x : Nat} (b : Byte) (h : x ≠ a) :
    (m.write a b).read x = m.read x := by
  induction m with
  | nil =>
    simp only [Memory.write]
    split
    · rfl
    · simp [Memory.read, Ne.symm h]
  | cons e rest ih =>
    obtain ⟨k, c⟩ := e
    simp only [Memory.write]
    split
    · split
      · rfl
      · simp [Memory.read, Ne.symm h]
    · split
      · subst_vars
        split <;> simp [Memory.read, Ne.symm h]
      · simp only [Memory.read, ih]

theorem Memory.read_write_same {m : Memory} {a : Nat} (b : Byte) (h : m.wf = true) :
    (m.write a b).read a = b := by
  induction m with
  | nil =>
    simp only [Memory.write]
    split
    · simp [Memory.read, ‹b = 0#8›]
    · simp [Memory.read]
  | cons e rest ih =>
    obtain ⟨k, c⟩ := e
    obtain ⟨hk, hc, hr, hab⟩ := Memory.wf_cons.1 h
    simp only [Memory.write]
    split
    · split
      · rw [Memory.read, if_neg (by omega), Memory.read_above hab (by omega), ‹b = 0#8›]
      · simp [Memory.read]
    · split
      · subst_vars
        split
        · rw [Memory.read_above hab (Nat.le_refl _), ‹b = 0#8›]
        · simp [Memory.read]
      · rw [Memory.read, if_neg (by omega)]
        exact ih hr

/-- A read after a write, said in one equation. -/
theorem Memory.read_write {m : Memory} {a : Nat} (b : Byte) (h : m.wf = true) (x : Nat) :
    (m.write a b).read x = if x = a then b else m.read x := by
  split
  · subst_vars; exact Memory.read_write_same b h
  · exact Memory.read_write_other b ‹_›

/-- Canonical memories with equal bytes are equal. -/
theorem Memory.ext_read {m m' : Memory} (h : m.wf = true) (h' : m'.wf = true)
    (hr : ∀ a, m.read a = m'.read a) : m = m' := by
  induction m generalizing m' with
  | nil =>
    cases m' with
    | nil => rfl
    | cons e rest =>
      obtain ⟨k, c⟩ := e
      have := hr k
      simp [Memory.read] at this
      exact absurd this.symm (Memory.wf_cons.1 h').2.1
  | cons e rest ih =>
    obtain ⟨k, c⟩ := e
    obtain ⟨hk, hc, hw, hab⟩ := Memory.wf_cons.1 h
    cases m' with
    | nil =>
      have := hr k
      simp [Memory.read] at this
      exact absurd this hc
    | cons e' rest' =>
      obtain ⟨k', c'⟩ := e'
      obtain ⟨hk', hc', hw', hab'⟩ := Memory.wf_cons.1 h'
      have hkk : k = k' := by
        rcases Nat.lt_trichotomy k k' with hlt | heq | hgt
        · have := hr k
          rw [Memory.read, if_pos rfl, Memory.read, if_neg (by omega), Memory.read_above hab' (by omega)] at this
          exact absurd this hc
        · exact heq
        · have := hr k'
          rw [Memory.read, if_neg (by omega), Memory.read_above hab (by omega), Memory.read, if_pos rfl] at this
          exact absurd this.symm hc'
      subst hkk
      have hcc : c = c' := by simpa [Memory.read] using hr k
      subst hcc
      congr 1
      refine ih hw hw' fun a => ?_
      by_cases ha : a = k
      · subst ha
        rw [Memory.read_above hab (Nat.le_refl _), Memory.read_above hab' (Nat.le_refl _)]
      · have := hr a
        rwa [Memory.read, if_neg (Ne.symm ha), Memory.read, if_neg (Ne.symm ha)] at this

/-! ### Bytes and words at successive addresses -/

theorem Memory.writeBytes_wf {m : Memory} {a : Nat} (bs : List Byte) (h : m.wf = true)
    (ha : a + bs.length ≤ memorySize) : (m.writeBytes a bs).wf = true := by
  induction bs generalizing m a with
  | nil => exact h
  | cons b bs ih =>
    simp only [List.length_cons] at ha
    exact ih (Memory.write_wf b h (by omega)) (by omega)

theorem Memory.read_writeBytes_other {m : Memory} {a x : Nat} (bs : List Byte)
    (h : x < a ∨ a + bs.length ≤ x) : (m.writeBytes a bs).read x = m.read x := by
  induction bs generalizing m a with
  | nil => rfl
  | cons b bs ih =>
    simp only [List.length_cons] at h
    rw [Memory.writeBytes, ih (by omega), Memory.read_write_other b (by omega)]

theorem Memory.read_writeBytes {m : Memory} {a : Nat} (bs : List Byte) (h : m.wf = true)
    (ha : a + bs.length ≤ memorySize) (k : Nat) (hk : k < bs.length) :
    (m.writeBytes a bs).read (a + k) = bs[k] := by
  induction bs generalizing m a k with
  | nil => simp at hk
  | cons b bs ih =>
    simp only [List.length_cons] at ha hk
    have hw : (m.write a b).wf = true := Memory.write_wf b h (by omega)
    rw [Memory.writeBytes]
    cases k with
    | zero => rw [Memory.read_writeBytes_other bs (by omega)]; exact Memory.read_write_same b h
    | succ k =>
      have := ih (a := a + 1) hw (by omega) k (by omega)
      rw [show a + (k + 1) = a + 1 + k by omega, this]
      rfl

theorem wordBytes_length (w : Word) : (wordBytes w).length = 4 := rfl

/-- The bytes of a list of words, in memory order. -/
theorem Memory.writeWords_eq (m : Memory) (a : Nat) (ws : List Word) :
    m.writeWords a ws = m.writeBytes a (ws.flatMap wordBytes) := by
  induction ws generalizing m a with
  | nil => rfl
  | cons w ws ih =>
    rw [Memory.writeWords, ih]
    rfl

theorem flatMap_wordBytes_length (ws : List Word) : (ws.flatMap wordBytes).length = 4 * ws.length := by
  induction ws with
  | nil => rfl
  | cons w ws ih => rw [List.flatMap_cons, List.length_append, ih, wordBytes_length, List.length_cons]; omega

theorem Memory.writeWords_wf {m : Memory} {a : Nat} (ws : List Word) (h : m.wf = true)
    (ha : a + 4 * ws.length ≤ memorySize) : (m.writeWords a ws).wf = true := by
  rw [Memory.writeWords_eq]
  exact Memory.writeBytes_wf _ h (by rw [flatMap_wordBytes_length]; exact ha)

theorem Memory.read_writeWords_other {m : Memory} {a x : Nat} (ws : List Word)
    (h : x < a ∨ a + 4 * ws.length ≤ x) : (m.writeWords a ws).read x = m.read x := by
  rw [Memory.writeWords_eq]
  exact Memory.read_writeBytes_other _ (by rw [flatMap_wordBytes_length]; exact h)

/-- The four bytes of a word, joined as a little-endian read joins them, are the word. -/
theorem wordBytes_join (w : Word) :
    w.extractLsb' 24 8 ++ w.extractLsb' 16 8 ++ w.extractLsb' 8 8 ++ w.extractLsb' 0 8 = w := by
  apply BitVec.eq_of_getLsbD_eq
  intro i hi
  simp only [BitVec.getLsbD_append, BitVec.getLsbD_extractLsb']
  by_cases h1 : i < 8
  · simp [h1]
  · by_cases h2 : i < 16
    · simp [h1, show i - 8 < 8 by omega, show 8 + (i - 8) = i by omega]
    · by_cases h3 : i < 24
      · simp [h1, show ¬ i - 8 < 8 by omega, show i - 8 - 8 < 8 by omega, show 16 + (i - 8 - 8) = i by omega]
      · simp [h1, show ¬ i - 8 < 8 by omega, show ¬ i - 8 - 8 < 8 by omega, show i - 8 - 8 - 8 < 8 by omega,
          show 24 + (i - 8 - 8 - 8) = i by omega]

theorem Memory.readWord_writeWord {m : Memory} {a : Nat} (w : Word) (h : m.wf = true) (ha : a + 4 ≤ memorySize) :
    (m.writeWord a w).readWord a = w := by
  have hb := Memory.read_writeBytes (m := m) (a := a) (wordBytes w) h ha
  have e0 : (m.writeWord a w).read a = _ := hb 0 (by rw [wordBytes_length]; omega)
  have e1 : (m.writeWord a w).read (a + 1) = _ := hb 1 (by rw [wordBytes_length]; omega)
  have e2 : (m.writeWord a w).read (a + 2) = _ := hb 2 (by rw [wordBytes_length]; omega)
  have e3 : (m.writeWord a w).read (a + 3) = _ := hb 3 (by rw [wordBytes_length]; omega)
  rw [Memory.readWord, e0, e1, e2, e3]
  exact wordBytes_join w

theorem Memory.readWord_congr {m m' : Memory} {a : Nat} (h : ∀ x, a ≤ x → x < a + 4 → m.read x = m'.read x) :
    m.readWord a = m'.readWord a := by
  simp only [Memory.readWord]
  rw [h a (by omega) (by omega), h (a + 1) (by omega) (by omega), h (a + 2) (by omega) (by omega),
    h (a + 3) (by omega) (by omega)]

theorem Memory.readWord_writeWords {m : Memory} {a : Nat} (ws : List Word) (h : m.wf = true)
    (ha : a + 4 * ws.length ≤ memorySize) (k : Nat) (hk : k < ws.length) :
    (m.writeWords a ws).readWord (a + 4 * k) = ws[k] := by
  induction ws generalizing m a k with
  | nil => simp at hk
  | cons w ws ih =>
    simp only [List.length_cons] at ha hk
    have hw : (m.writeWord a w).wf = true := Memory.writeBytes_wf _ h (by rw [wordBytes_length]; omega)
    rw [Memory.writeWords]
    cases k with
    | zero =>
      rw [Memory.readWord_congr (m' := m.writeWord a w) fun x _ hx =>
        Memory.read_writeWords_other ws (by omega)]
      exact Memory.readWord_writeWord w h (by omega)
    | succ k =>
      rw [show a + 4 * (k + 1) = a + 4 + 4 * k by omega, ih hw (by omega) k (by omega)]
      rfl

theorem Memory.readWords_length (m : Memory) (a n : Nat) : (m.readWords a n).length = n := by
  induction n generalizing a with
  | zero => rfl
  | succ n ih => rw [Memory.readWords, List.length_cons, ih]

theorem Memory.readBytes_length (m : Memory) (a n : Nat) : (m.readBytes a n).length = n := by
  induction n generalizing a with
  | zero => rfl
  | succ n ih => rw [Memory.readBytes, List.length_cons, ih]

theorem Memory.readWords_congr {m m' : Memory} {a n : Nat}
    (h : ∀ x, a ≤ x → x < a + 4 * n → m.read x = m'.read x) : m.readWords a n = m'.readWords a n := by
  induction n generalizing a with
  | zero => rfl
  | succ n ih =>
    rw [Memory.readWords, Memory.readWords, ih fun x h1 h2 => h x (by omega) (by omega),
      Memory.readWord_congr fun x h1 h2 => h x (by omega) (by omega)]

theorem Memory.readBytes_congr {m m' : Memory} {a n : Nat}
    (h : ∀ x, a ≤ x → x < a + n → m.read x = m'.read x) : m.readBytes a n = m'.readBytes a n := by
  induction n generalizing a with
  | zero => rfl
  | succ n ih =>
    rw [Memory.readBytes, Memory.readBytes, ih fun x h1 h2 => h x (by omega) (by omega), h a (by omega) (by omega)]

theorem Memory.readWords_append (m : Memory) (a n k : Nat) :
    m.readWords a (n + k) = m.readWords a n ++ m.readWords (a + 4 * n) k := by
  induction n generalizing a with
  | zero => simp [Memory.readWords]
  | succ n ih =>
    rw [show n + 1 + k = n + k + 1 by omega, Memory.readWords, Memory.readWords, ih, List.cons_append,
      show a + 4 + 4 * n = a + 4 * (n + 1) by omega]

theorem Memory.readBytes_append (m : Memory) (a n k : Nat) :
    m.readBytes a (n + k) = m.readBytes a n ++ m.readBytes (a + n) k := by
  induction n generalizing a with
  | zero => simp [Memory.readBytes]
  | succ n ih =>
    rw [show n + 1 + k = n + k + 1 by omega, Memory.readBytes, Memory.readBytes, ih, List.cons_append,
      show a + 1 + n = a + (n + 1) by omega]

theorem Memory.readWords_writeWords {m : Memory} {a : Nat} (ws : List Word) (h : m.wf = true)
    (ha : a + 4 * ws.length ≤ memorySize) : (m.writeWords a ws).readWords a ws.length = ws := by
  induction ws generalizing m a with
  | nil => rfl
  | cons w ws ih =>
    simp only [List.length_cons] at ha
    have hw : (m.writeWord a w).wf = true := Memory.writeBytes_wf _ h (by rw [wordBytes_length]; omega)
    have h0 := Memory.readWord_writeWords (m := m) (a := a) (w :: ws) h (by simpa using ha) 0 (by simp)
    rw [List.length_cons, Memory.readWords, Memory.writeWords]
    simp only [Memory.writeWords, Nat.mul_zero, Nat.add_zero] at h0
    rw [h0, ih hw (by omega)]
    rfl

end Sys2Proof.Machine
end

