-- ==== Sys2Proof/Laws/Pulse.lean ====
section
/-! SUPPORT. Lengths and members of the entry lists, and the bits of an entry word. -/

namespace Sys2Proof.Machine

@[simp] theorem byteWords_length (b : Byte) (p : TimingProfile) : (byteWords b p).length = 8 := rfl

@[simp] theorem encodeByte_length (b : Byte) (p : TimingProfile) : (encodeByte b p).length = 8 := rfl

theorem byteWords_getElem (b : Byte) (p : TimingProfile) (j : Nat) (h : j < (byteWords b p).length) :
    (byteWords b p)[j] = entryWord (b.getLsbD (7 - j)) p := by
  simp [byteWords]

theorem encodeBuffer_length (bs : List Byte) (p : TimingProfile) : (encodeBuffer bs p).length = 8 * bs.length := by
  induction bs with
  | nil => rfl
  | cons b bs ih => rw [encodeBuffer, List.length_append, ih, encodeByte_length, List.length_cons]; omega

theorem encodeBuffer_append (as bs : List Byte) (p : TimingProfile) :
    encodeBuffer (as ++ bs) p = encodeBuffer as p ++ encodeBuffer bs p := by
  induction as with
  | nil => rfl
  | cons a as ih => rw [List.cons_append, encodeBuffer, encodeBuffer, ih, List.append_assoc]

/-- The bits of a word with a 15-bit field low, a 15-bit field at 16 and bit 15 set. -/
theorem getLsbD_entryBits (off on : Tick) (i : Nat) :
    ((off.setWidth 32 <<< 16) ||| (1#32 <<< 15) ||| on.setWidth 32 : Word).getLsbD i =
      if i < 15 then on.getLsbD i else if i = 15 then true else off.getLsbD (i - 16) := by
  simp only [BitVec.getLsbD_or, BitVec.getLsbD_setWidth, BitVec.getLsbD_shiftLeft]
  by_cases h1 : i < 15
  · simp [h1, show i < 32 by omega, show i < 16 by omega]
  · rw [BitVec.getLsbD_of_ge on i (by omega)]
    by_cases h2 : i = 15
    · subst h2; simp
    · by_cases h3 : i < 32
      · simp [h1, h2, h3, show ¬ i < 16 by omega, show i - 16 < 32 by omega, show ¬ i - 15 = 0 by omega]
      · simp [h1, h2, h3, BitVec.getLsbD_of_ge off (i - 16) (by omega)]

end Sys2Proof.Machine
end

