-- ==== Sys2Proof/Laws/Translate.lean ====
section
/-! SUPPORT. What the loop of TRANSLATE does to host memory, and everything a TRANSLATE can do, said once. -/

namespace Sys2Proof.Machine

/-! ### The loop -/

theorem translateBytes_wf {p : TimingProfile} {n src dst : Nat} {m : Memory} (h : m.wf = true)
    (hd : dst + 32 * n ≤ memorySize) : (translateBytes p n src dst m).wf = true := by
  induction n generalizing src dst m with
  | zero => exact h
  | succ n ih => exact ih (Memory.writeWords_wf _ h (by rw [byteWords_length]; omega)) (by omega)

theorem translateBytes_read_other {p : TimingProfile} {n src dst x : Nat} {m : Memory}
    (h : x < dst ∨ dst + 32 * n ≤ x) : (translateBytes p n src dst m).read x = m.read x := by
  induction n generalizing src dst m with
  | zero => rfl
  | succ n ih =>
    rw [translateBytes, ih (by omega), Memory.read_writeWords_other _ (by rw [byteWords_length]; omega)]

/-- Word 8i + j of the buffer is the entry word of bit 7 - j of byte i, when the ranges do not overlap (R133, R47). -/
theorem translateBytes_readWord {p : TimingProfile} {n src dst : Nat} {m : Memory} (h : m.wf = true)
    (hd : dst + 32 * n ≤ memorySize) (hsep : dst + 32 * n ≤ src ∨ src + n ≤ dst) (i j : Nat) (hi : i < n) (hj : j < 8) :
    (translateBytes p n src dst m).readWord (dst + 4 * (8 * i + j)) =
      entryWord ((m.read (src + i)).getLsbD (7 - j)) p := by
  induction n generalizing src dst m i with
  | zero => omega
  | succ n ih =>
    have hw : (m.writeWords dst (byteWords (m.read src) p)).wf = true :=
      Memory.writeWords_wf _ h (by rw [byteWords_length]; omega)
    rw [translateBytes]
    cases i with
    | zero =>
      have := Memory.readWord_writeWords (m := m) (a := dst) (byteWords (m.read src) p) h
        (by rw [byteWords_length]; omega) j (by rw [byteWords_length]; omega)
      rw [Memory.readWord_congr (m' := m.writeWords dst (byteWords (m.read src) p)) fun x h1 h2 =>
        translateBytes_read_other (Or.inl (by omega))]
      rw [Nat.mul_zero, Nat.zero_add, this, byteWords_getElem, Nat.add_zero]
    | succ i =>
      have := ih hw (src := src + 1) (dst := dst + 32) (by omega) (by omega) i (by omega)
      rw [show dst + 4 * (8 * (i + 1) + j) = dst + 32 + 4 * (8 * i + j) by omega, this,
        Memory.read_writeWords_other _ (by rw [byteWords_length]; omega), show src + 1 + i = src + (i + 1) by omega]

/-- The words of a byte are those of its eight entries (R63, R130, R131). -/
theorem entryWord_eq_pack (b : Bool) (p : TimingProfile) : entryWord b p = entryPack (entryOf b p) := by
  have low : ((BitVec.ofBool false).setWidth 32 <<< 31 : Word) = 0#32 := by decide
  have high : ((BitVec.ofBool true).setWidth 32 <<< 15 : Word) = 1#32 <<< 15 := by decide
  have order : ∀ off one on : Word, off ||| one ||| on = on ||| one ||| off ||| 0#32 := by
    intro off one on
    rw [BitVec.or_zero, BitVec.or_comm (off ||| one) on, BitVec.or_comm off one, BitVec.or_assoc]
  cases b
  · rw [entryPack, show (entryOf false p).level1 = false from rfl, show (entryOf false p).level0 = true from rfl, low, high]
    exact order _ _ _
  · rw [entryPack, show (entryOf true p).level1 = false from rfl, show (entryOf true p).level0 = true from rfl, low, high]
    exact order _ _ _

theorem byteWords_eq (b : Byte) (p : TimingProfile) : byteWords b p = (encodeByte b p).map entryPack := by
  have : (List.range 8) = [0, 1, 2, 3, 4, 5, 6, 7] := rfl
  simp only [byteWords, this, encodeByte, List.map, entryWord_eq_pack]

/-- The buffer a TRANSLATE leaves reads as the encoding of the bytes it consumed (R131, R140). -/
theorem translateBytes_readWords {p : TimingProfile} {n src dst : Nat} {m : Memory} (h : m.wf = true)
    (hd : dst + 32 * n ≤ memorySize) (hsep : dst + 32 * n ≤ src ∨ src + n ≤ dst) :
    (translateBytes p n src dst m).readWords dst (8 * n) = (encodeBuffer (m.readBytes src n) p).map entryPack := by
  induction n generalizing src dst m with
  | zero => rfl
  | succ n ih =>
    have hw : (m.writeWords dst (byteWords (m.read src) p)).wf = true :=
      Memory.writeWords_wf _ h (by rw [byteWords_length]; omega)
    have hfirst : (m.writeWords dst (byteWords (m.read src) p)).readWords dst 8 = byteWords (m.read src) p :=
      Memory.readWords_writeWords (m := m) (a := dst) (byteWords (m.read src) p) h (by rw [byteWords_length]; omega)
    rw [show 8 * (n + 1) = 8 + 8 * n by omega, Memory.readWords_append, translateBytes,
      Memory.readWords_congr (n := 8) (m' := m.writeWords dst (byteWords (m.read src) p)) fun x h1 h2 =>
        translateBytes_read_other (Or.inl (by omega)),
      hfirst, show dst + 4 * 8 = dst + 32 by omega, ih hw (by omega) (by omega),
      Memory.readBytes_congr (m' := m) fun x h1 h2 =>
        Memory.read_writeWords_other _ (by rw [byteWords_length]; omega)]
    rw [Memory.readBytes, encodeBuffer, List.map_append, byteWords_eq]

/-! ### The conditions -/

theorem translateFault_eq_none {src dst : Word} {n : Nat} : translateFault src dst n = none ↔
    src.toNat + n ≤ memorySize ∧ dst.toNat + 32 * n ≤ memorySize ∧ dst.toNat % 4 = 0 ∧
      (dst.toNat + 32 * n ≤ src.toNat ∨ src.toNat + n ≤ dst.toNat) := by
  unfold translateFault
  split
  · rename_i h
    simp [rangePasses] at h
    simp
    omega
  · rename_i h
    simp [rangePasses] at h
    split
    · rename_i h2
      simp [dstMisaligned] at h2
      simp [h2]
    · rename_i h2
      simp [dstMisaligned] at h2
      split
      · rename_i h3
        simp [rangesOverlap] at h3
        simp
        omega
      · rename_i h3
        simp [rangesOverlap] at h3
        simp
        omega

theorem consumedBytes_le_len (len cap : Word) : consumedBytes len cap ≤ len.toNat := Nat.min_le_right _ _

theorem consumedBytes_mul_le_cap (len cap : Word) : 8 * consumedBytes len cap ≤ cap.toNat := by
  have : consumedBytes len cap ≤ cap.toNat / 8 := Nat.min_le_left _ _
  omega

/-- A count of entries fits a response word. -/
theorem countWord_toNat {n : Nat} (h : n < memorySize) : (countWord n).toNat = n := by
  simp [countWord, BitVec.toNat_ofNat, Nat.mod_eq_of_lt h]

/-! ### Everything a TRANSLATE can do -/

/-- A TRANSLATE answers a next state, in one of three ways: (0, 0) with no access, a fault recorded, or the entries of all
the bytes it may consume (R133 to R137). -/
theorem execTranslate_cases (ch : Byte) (src len dst cap : Word) (s : State) :
    ((s.avail ch.toNat = false ∨ consumedBytes len cap = 0) ∧
      execTranslate ch src len dst cap s = .next (s.respond [countWord 0, countWord 0])) ∨
    (s.avail ch.toNat = true ∧ consumedBytes len cap ≠ 0 ∧
      ((∃ f, translateFault src dst (consumedBytes len cap) = some f ∧
          execTranslate ch src len dst cap s = .next (s.raise f)) ∨
        (translateFault src dst (consumedBytes len cap) = none ∧
          execTranslate ch src len dst cap s =
            .next (translateRun (s.slot ch.toNat).profile src dst (consumedBytes len cap) s)))) := by
  by_cases ha : s.avail ch.toNat = false
  · exact .inl ⟨.inl ha, by rw [execTranslate, if_pos ha]⟩
  · by_cases hn : consumedBytes len cap = 0
    · exact .inl ⟨.inr hn, by rw [execTranslate, if_neg ha, if_pos hn]⟩
    · refine .inr ⟨by simpa using ha, hn, ?_⟩
      cases hf : translateFault src dst (consumedBytes len cap) with
      | some f => exact .inl ⟨f, rfl, by rw [execTranslate, if_neg ha, if_neg hn, hf]⟩
      | none => exact .inr ⟨rfl, by rw [execTranslate, if_neg ha, if_neg hn, hf]⟩

end Sys2Proof.Machine
end

