-- ==== Sys2Proof/Laws/Step.lean ====
section
/-! SUPPORT. Everything a command can do and everything an interaction can do, said once; and what a host reads as the
response of a command. -/

namespace Sys2Proof.Machine

/-- A command that answers a next state responds, records a fault, records a refusal, writes the slot of its own idle
channel, does nothing, or is a TRANSLATE that writes its entries (R95, R110, R111, R112, R133). -/
theorem exec_cases {i : Instr} {s t : State} (h : exec i s = .next t) :
    (∃ ws, t = s.respond ws) ∨ (∃ f, t = s.raise f) ∨ (∃ r, t = s.refuse r) ∨
    (∃ c v, t = s.setSlot c v ∧ s.tracker c = .idle ∧ instrChannel i = some c ∧ c < s.numChannels) ∨ t = s ∨
    (∃ ch src len dst cap, i = .translate ch src len dst cap ∧ consumedBytes len cap ≠ 0 ∧
      translateFault src dst (consumedBytes len cap) = none ∧
      t = translateRun (s.slot ch.toNat).profile src dst (consumedBytes len cap) s) := by
  cases i with
  | resolve => cases h; exact .inl ⟨_, rfl⟩
  | bind ch p =>
    rcases execBind_cases ch p s with ⟨_, e⟩ | ⟨_, _, e⟩ | ⟨hc, hi, e⟩ <;> (rw [exec, e] at h; cases h)
    · exact .inr (.inr (.inl ⟨_, rfl⟩))
    · exact .inr (.inl ⟨_, rfl⟩)
    · exact .inr (.inr (.inr (.inl ⟨_, _, rfl, hi, rfl, hc⟩)))
  | unbind ch =>
    rcases execUnbind_cases ch s with ⟨_, e⟩ | ⟨_, _, e⟩ | ⟨hc, hi, e⟩ <;> (rw [exec, e] at h; cases h)
    · exact .inr (.inr (.inr (.inr (.inl rfl))))
    · exact .inr (.inl ⟨_, rfl⟩)
    · exact .inr (.inr (.inr (.inl ⟨_, _, rfl, hi, rfl, hc⟩)))
  | readprof => cases h; exact .inl ⟨_, rfl⟩
  | translate ch src len dst cap =>
    rcases execTranslate_cases ch src len dst cap s with ⟨_, e⟩ | ⟨_, hn, ⟨_, _, e⟩ | ⟨hf, e⟩⟩ <;> (rw [exec, e] at h; cases h)
    · exact .inl ⟨_, rfl⟩
    · exact .inr (.inl ⟨_, rfl⟩)
    · exact .inr (.inr (.inr (.inr (.inr ⟨_, _, _, _, _, rfl, hn, hf, rfl⟩))))

/-- An accepted interaction that answers a next state is a command that ran, a refusal recorded, a host write stored, faults
recorded, a tracker written, or a power-on reset (R170, R190). -/
theorem runInteraction_cases {a : Interaction} {s t : State} (h : runInteraction a s = .next t) :
    (∃ ws i, a = .command ws ∧ decode ws = .ok i ∧ exec i s = .next t) ∨ (∃ r, t = s.refuse r) ∨
    (∃ addr b, a = .hostWrite addr b ∧ s.coveringChannels addr = [] ∧ t = s.setMem (s.mem.write addr.toNat b)) ∨
    (∃ fs, t = { s with faults := s.faults ++ fs }) ∨
    (∃ c x, t = s.setTracker c x) ∨
    (a = .powerOnReset ∧ s.anyActive = false ∧
      t = { State.resetWith s.cfg with mem := s.mem, port := s.port, response := s.response }) := by
  cases a with
  | command ws =>
    cases hd : decode ws with
    | ok i => rw [runInteraction, runFrame_ok hd] at h; exact .inl ⟨ws, i, rfl, hd, h⟩
    | error e =>
      cases e with
      | illegalCommand w => rw [runInteraction, runFrame_illegal hd] at h; cases h; exact .inr (.inl ⟨_, rfl⟩)
      | notWhole => rw [runInteraction, runFrame_notWhole hd] at h; cases h
  | hostWrite addr b =>
    rw [runInteraction] at h
    rcases hostWrite_cases addr b s with ⟨hc, e⟩ | ⟨_, e⟩ <;> (rw [e] at h; cases h)
    · exact .inr (.inr (.inl ⟨_, _, rfl, hc, rfl⟩))
    · exact .inr (.inr (.inr (.inl ⟨_, rfl⟩)))
  | txBegin ch base len =>
    rw [runInteraction] at h
    rcases txBegin_cases ch base len s with ⟨_, e⟩ | ⟨_, _, e⟩ | ⟨_, _, e⟩ <;> (rw [e] at h; cases h)
    · exact .inr (.inl ⟨_, rfl⟩)
    · exact .inr (.inr (.inr (.inl ⟨_, rfl⟩)))
    · exact .inr (.inr (.inr (.inr (.inl ⟨_, _, rfl⟩))))
  | txEnd ch => cases h; exact .inr (.inr (.inr (.inr (.inl ⟨_, _, rfl⟩))))
  | powerOnReset =>
    rw [runInteraction] at h
    rcases powerOnReset_cases s with ⟨_, e⟩ | ⟨ha, e⟩ <;> rw [e] at h <;> cases h
    exact .inr (.inr (.inr (.inr (.inr ⟨rfl, ha, rfl⟩))))

/-- No command reads or writes the port. -/
theorem exec_setPort (i : Instr) (s : State) (ps : List PortItem) :
    exec i (s.setPort ps) = mapNext (fun t => t.setPort ps) (exec i s) := by
  cases i with
  | resolve => rfl
  | bind ch p =>
    have h : (s.setPort ps).numChannels = s.numChannels := rfl
    have k : (s.setPort ps).tracker ch.toNat = s.tracker ch.toNat := rfl
    by_cases h1 : s.numChannels ≤ ch.toNat
    · simp [exec, execBind, h, h1, mapNext]; rfl
    · by_cases h2 : s.tracker ch.toNat = .idle <;> simp [exec, execBind, h, h1, h2, k, mapNext] <;> rfl
  | unbind ch =>
    have h : (s.setPort ps).numChannels = s.numChannels := rfl
    have k : (s.setPort ps).tracker ch.toNat = s.tracker ch.toNat := rfl
    by_cases h1 : s.numChannels ≤ ch.toNat
    · simp [exec, execUnbind, h, h1, mapNext]
    · by_cases h2 : s.tracker ch.toNat = .idle <;> simp [exec, execUnbind, h, h1, h2, k, mapNext] <;> rfl
  | readprof => rfl
  | translate ch src len dst cap =>
    have h : (s.setPort ps).avail ch.toNat = s.avail ch.toNat := rfl
    by_cases h1 : s.avail ch.toNat = false
    · simp [exec, execTranslate, h, h1, mapNext]; rfl
    · by_cases h2 : consumedBytes len cap = 0
      · simp [exec, execTranslate, h, h1, h2, mapNext]; rfl
      · simp only [exec, execTranslate, h, h1, h2]
        cases translateFault src dst (consumedBytes len cap) <;> rfl

/-- No interaction reads or writes what is pending behind it. -/
theorem runInteraction_setPort (a : Interaction) (s : State) (ps : List PortItem) :
    runInteraction a (s.setPort ps) = mapNext (fun t => t.setPort ps) (runInteraction a s) := by
  cases a with
  | command ws =>
    simp only [runInteraction, runFrame]
    split
    · exact exec_setPort _ _ _
    · rfl
    · rfl
  | hostWrite addr b =>
    simp only [runInteraction, mapNext]
    have h : (s.setPort ps).coveringChannels addr = s.coveringChannels addr := rfl
    rcases hostWrite_cases addr b s with ⟨h1, e⟩ | ⟨h1, e⟩ <;>
      rcases hostWrite_cases addr b (s.setPort ps) with ⟨h2, e2⟩ | ⟨h2, e2⟩ <;> rw [h] at h2
    · rw [e, e2]; rfl
    · exact absurd h1 h2
    · exact absurd h2 h1
    · rw [e, e2, h]; rfl
  | txBegin ch base len =>
    have h : (s.setPort ps).numChannels = s.numChannels := rfl
    have k : (s.setPort ps).tracker ch = s.tracker ch := rfl
    by_cases h1 : s.numChannels ≤ ch
    · simp [runInteraction, txBegin, h, h1, mapNext]; rfl
    · by_cases h2 : s.tracker ch = .idle <;> simp [runInteraction, txBegin, h, h1, h2, k, mapNext] <;> rfl
  | txEnd => rfl
  | powerOnReset =>
    simp only [runInteraction, powerOnReset]
    have h : (s.setPort ps).anyActive = s.anyActive := rfl
    rw [h]; split <;> rfl

/-- What is pending stays. -/
theorem runInteraction_port {a : Interaction} {s t : State} (h : runInteraction a s = .next t) : t.port = s.port := by
  have := runInteraction_setPort a s s.port
  rw [show s.setPort s.port = s from rfl, h] at this
  simp only [mapNext] at this
  injection this with this
  rw [this]; rfl

/-- A host reads off the response port the words a command added to it. -/
theorem newResponse_append {s t : State} {ws : List Word} (h : t.response = s.response ++ ws) : newResponse s t = ws := by
  rw [newResponse, h, List.drop_left]

end Sys2Proof.Machine
end

