-- ==== Sys2Proof/Laws/Driver.lean ====
section
/-! SUPPORT. The TRANSLATE commands a host issues for numbers it computed, and everything one of them can give it. -/

namespace Sys2Proof.Machine

/-- Numbers that are ARG words make the command with those words. -/
theorem hostTranslate_toNat (ch : Byte) (src len dst cap : Word) :
    hostTranslate ch src.toNat len.toNat dst.toNat cap = some (.translate ch src len dst cap) := by
  rw [hostTranslate, if_pos ⟨src.isLt, len.isLt, dst.isLt⟩]
  simp

/-- A number that is no ARG word makes no command. -/
theorem hostTranslate_eq_none {ch : Byte} {src len dst : Nat} {cap : Word} :
    hostTranslate ch src len dst cap = none ↔ memorySize ≤ src ∨ memorySize ≤ len ∨ memorySize ≤ dst := by
  unfold hostTranslate
  split
  · rename_i h
    simp
    omega
  · rename_i h
    simp
    omega

/-- The counts a TRANSLATE responds, as the host reads them. -/
theorem hostCall_of_next {ch : Byte} {src len dst cap m e : Word} {s t : State}
    (h : exec (.translate ch src len dst cap) s = .next t) (hr : t.response = s.response ++ [m, e]) :
    hostCall ch src.toNat len.toNat dst.toNat cap s = some (t, some (m.toNat, e.toNat)) := by
  simp only [hostCall, hostTranslate_toNat, h, newResponse_append hr]

/-- A host's call is not made, or answers (0, 0), or records a fault and answers nothing, or writes the entries of the bytes
it may consume and answers their counts (R67, R133). -/
theorem hostCall_cases (ch : Byte) (src len dst : Nat) (cap : Word) (s : State) :
    ((memorySize ≤ src ∨ memorySize ≤ len ∨ memorySize ≤ dst) ∧ hostCall ch src len dst cap s = none) ∨
    ∃ a l d : Word, a.toNat = src ∧ l.toNat = len ∧ d.toNat = dst ∧
      (((s.avail ch.toNat = false ∨ consumedBytes l cap = 0) ∧
          hostCall ch src len dst cap s = some (s.respond [countWord 0, countWord 0], some (0, 0))) ∨
        (∃ f, translateFault a d (consumedBytes l cap) = some f ∧ hostCall ch src len dst cap s = some (s.raise f, none)) ∨
        (s.avail ch.toNat = true ∧ consumedBytes l cap ≠ 0 ∧ translateFault a d (consumedBytes l cap) = none ∧
          hostCall ch src len dst cap s =
            some (translateRun (s.slot ch.toNat).profile a d (consumedBytes l cap) s,
              some (consumedBytes l cap, 8 * consumedBytes l cap)))) := by
  by_cases h : memorySize ≤ src ∨ memorySize ≤ len ∨ memorySize ≤ dst
  · exact .inl ⟨h, by rw [hostCall, hostTranslate_eq_none.2 h]⟩
  · have word : ∀ n, n < memorySize → (BitVec.ofNat 32 n).toNat = n := fun n hn => by
      rw [BitVec.toNat_ofNat]; exact Nat.mod_eq_of_lt hn
    obtain ⟨ha, hl, hd⟩ : src < memorySize ∧ len < memorySize ∧ dst < memorySize := by omega
    obtain ⟨a, ea⟩ : ∃ a : Word, a.toNat = src := ⟨_, word src ha⟩
    obtain ⟨l, el⟩ : ∃ l : Word, l.toNat = len := ⟨_, word len hl⟩
    obtain ⟨d, ed⟩ : ∃ d : Word, d.toNat = dst := ⟨_, word dst hd⟩
    refine .inr ⟨a, l, d, ea, el, ed, ?_⟩
    subst ea el ed
    rcases execTranslate_cases ch a l d cap s with ⟨hz, e⟩ | ⟨hv, hn, ⟨f, hf, e⟩ | ⟨hf, e⟩⟩
    · exact .inl ⟨hz, hostCall_of_next e rfl⟩
    · refine .inr (.inl ⟨f, hf, ?_⟩)
      have e' : exec (.translate ch a l d cap) s = .next (s.raise f) := e
      have hr : newResponse s (s.raise f) = [] := newResponse_append (by simp)
      simp only [hostCall, hostTranslate_toNat, e', hr]
    · refine .inr (.inr ⟨hv, hn, hf, ?_⟩)
      have h1 := consumedBytes_le_len l cap
      have h2 := consumedBytes_mul_le_cap l cap
      have hc : cap.toNat < memorySize := cap.isLt
      rw [hostCall_of_next e rfl, countWord_toNat (n := consumedBytes l cap) (by omega),
        countWord_toNat (n := 8 * consumedBytes l cap) (by omega)]

/-- A host's call whose operands are ARG words, on an available channel and with ranges that fit, writes the entries of the
bytes it may consume, none or more, and answers their counts (R133, R134). -/
theorem hostCall_fits {ch : Byte} {src len dst : Nat} {cap : Word} {s : State} (ha : s.avail ch.toNat = true)
    (hs : src < memorySize) (hl : len < memorySize) (hdw : dst < memorySize)
    (h : RangesFit src dst (min (cap.toNat / 8) len)) :
    let n := min (cap.toNat / 8) len
    hostCall ch src len dst cap s =
      some ((s.setMem (translateBytes (s.slot ch.toNat).profile n src dst s.mem)).respond
        [countWord n, countWord (8 * n)], some (n, 8 * n)) := by
  obtain ⟨h1, h2, h3, h4⟩ := h
  rcases hostCall_cases ch src len dst cap s with ⟨hb, _⟩ | ⟨a, l, d, rfl, rfl, rfl, ⟨hz, e⟩ | ⟨f, hf, e⟩ | ⟨_, _, _, e⟩⟩
  · omega
  · rcases hz with hz | hz
    · rw [ha] at hz; cases hz
    · rw [consumedBytes] at hz
      rw [e, hz]; rfl
  · rw [translateFault_eq_none.2 ⟨by simpa [consumedBytes] using h1, by simpa [consumedBytes] using h2, h3,
      by simpa [consumedBytes] using h4⟩] at hf
    cases hf
  · rw [e]; rfl

end Sys2Proof.Machine
end

