-- ==== Sys2Proof/Laws/PerInstr.lean ====
section
/-! SUPPORT. Statements made for each constructor of Instr: EncodedLength says that the words the encoder writes for a
command are as many as 30_encoding.md R65 gives its opcode, the header first. -/

namespace Sys2Proof.Laws.EncodedLength

/-- The words of a command: a header and the operand words of R65. -/
def Statement (i : Instr) : Prop := (encode i).length = wordCount i ∧ (encode i) ≠ []

theorem resolve (pid : Byte) (man : Bool) (manual : TimingProfile) : Statement (.resolve pid man manual) :=
  ⟨rfl, by simp [encode]⟩

theorem bind (ch : Byte) (prof : TimingProfile) : Statement (.bind ch prof) := ⟨rfl, by simp [encode]⟩

theorem unbind (ch : Byte) : Statement (.unbind ch) := ⟨rfl, by simp [encode]⟩

theorem readprof (ch : Byte) : Statement (.readprof ch) := ⟨rfl, by simp [encode]⟩

theorem translate (ch : Byte) (src len dst cap : Word) : Statement (.translate ch src len dst cap) :=
  ⟨rfl, by simp [encode]⟩

end Sys2Proof.Laws.EncodedLength
end

