-- ==== Sys2Proof/Laws/Ticks.lean ====
section
/-! SUPPORT. Ceiling division, and what a built parameter set guarantees (00_scope.md R9). -/

namespace Sys2Proof

/-- `ceil_div` is the least quotient not below the exact one. -/
theorem ceilDiv_le_iff {a b m : Nat} (hb : 0 < b) : ceilDiv a b ≤ m ↔ a ≤ m * b := by
  rw [ceilDiv, Nat.div_le_iff_le_mul_add_pred hb, Nat.mul_comm b m]
  omega

theorem le_ceilDiv_mul (a : Nat) {b : Nat} (hb : 0 < b) : a ≤ ceilDiv a b * b := (ceilDiv_le_iff hb).1 (Nat.le_refl _)

@[simp] theorem ceilDiv_zero {b : Nat} (hb : 0 < b) : ceilDiv 0 b = 0 :=
  Nat.le_zero.1 ((ceilDiv_le_iff hb).2 (by omega))

theorem ceilDiv_mono {a a' b : Nat} (hb : 0 < b) (h : a ≤ a') : ceilDiv a b ≤ ceilDiv a' b :=
  (ceilDiv_le_iff hb).2 (Nat.le_trans h (le_ceilDiv_mul a' hb))

/-- `ticks_ns(t)` is the least count of ticks not shorter than t nanoseconds (R91). -/
theorem Params.ticksNs_le_iff {p : Params} (h : 1 ≤ p.clkDiv) {t m : Nat} :
    p.ticksNs t ≤ m ↔ t * p.srcClkHz ≤ m * (p.clkDiv * 1000000000) :=
  ceilDiv_le_iff (by omega)

/-- `ticks_us(t)` is the least count of ticks not shorter than t microseconds (R91). -/
theorem Params.ticksUs_le_iff {p : Params} (h : 1 ≤ p.clkDiv) {t m : Nat} :
    p.ticksUs t ≤ m ↔ t * p.srcClkHz ≤ m * (p.clkDiv * 1000000) :=
  ceilDiv_le_iff (by omega)

/-- What R9's checks say of a well-formed parameter set. -/
theorem Params.wellFormed_iff {p : Params} : p.wellFormed = true ↔
    (1 ≤ p.numChannels ∧ p.numChannels ≤ 256) ∧ 1 ≤ p.srcClkHz ∧ 1 ≤ p.clkDiv ∧ 1 ≤ p.numProtocols ∧
      (∀ r ∈ p.table, r.key < 256) ∧ ∀ r ∈ p.table, ∀ t ∈ p.rowTicks r, t ≤ 32767 := by
  simp only [Params.wellFormed, Params.channelsOk, Params.clockOk, Params.dividerOk, Params.tableOk, Params.keysOk,
    Params.ticksOk, Bool.and_eq_true, decide_eq_true_eq, List.all_eq_true]
  tauto

theorem Config.channels_pos (c : Config) : 1 ≤ c.params.numChannels := (Params.wellFormed_iff.1 c.ok).1.1

theorem Config.clkDiv_pos (c : Config) : 1 ≤ c.params.clkDiv := (Params.wellFormed_iff.1 c.ok).2.2.1

theorem Config.table_pos (c : Config) : 1 ≤ c.params.table.length := (Params.wellFormed_iff.1 c.ok).2.2.2.1

theorem Config.ticks_fit (c : Config) {r : TableRow} (h : r ∈ c.params.table) :
    ∀ t ∈ c.params.rowTicks r, t ≤ 32767 := (Params.wellFormed_iff.1 c.ok).2.2.2.2.2 r h

end Sys2Proof
end

