-- ==== Sys2Proof/Machine/Assembler.lean ====
section
/-! DEFINITION. The textual form of commands (30_encoding.md R74, R75), one command per line: reading a line into a command
or a pseudo-command, what running one does, and writing a command as a line. Fields stand in the order R74 prints them;
blanks between tokens are free [DESIGN CHOICE, log entry 21]. -/

namespace Sys2Proof.Machine

/-! ### Tokens and numbers -/

/-- A token of a line: a word of letters, digits and underscores, or one other character. -/
inductive AsmToken where
  | word (cs : List Char)
  | sym (c : Char)
deriving DecidableEq, Repr

/-- A character of a word. -/
def asmWordChar (c : Char) : Bool := c.isAlphanum || c == '_'

/-- The word read so far, if any (its characters are in reverse). -/
def asmFlush (acc : List Char) : List AsmToken := if acc.isEmpty then [] else [.word acc.reverse]

/-- The tokens of a line; a semicolon starts a comment. -/
def asmLex : List Char → List Char → List AsmToken
  | [], acc => asmFlush acc
  | c :: cs, acc =>
    if c = ';' then asmFlush acc
    else if asmWordChar c then asmLex cs (c :: acc)
    else if c.isWhitespace then asmFlush acc ++ asmLex cs []
    else asmFlush acc ++ .sym c :: asmLex cs []

/-- The value of a hexadecimal digit. -/
def asmDigit (c : Char) : Option Nat :=
  if '0' ≤ c ∧ c ≤ '9' then some (c.toNat - '0'.toNat)
  else if 'a' ≤ c ∧ c ≤ 'f' then some (c.toNat - 'a'.toNat + 10)
  else if 'A' ≤ c ∧ c ≤ 'F' then some (c.toNat - 'A'.toNat + 10)
  else none

/-- The digits of a number in a base, from the most significant. -/
def asmDigits (base : Nat) : List Char → Nat → Option Nat
  | [], n => some n
  | c :: cs, n =>
    match asmDigit c with
    | some d => if d < base then asmDigits base cs (n * base + d) else none
    | none => none

/-- A number: `0x` hexadecimal, `0b` binary, else decimal (00_scope.md R10). -/
def asmNumber : List Char → Option Nat
  | [] => none
  | ['0', 'x'] => none
  | ['0', 'b'] => none
  | '0' :: 'x' :: ds => asmDigits 16 ds 0
  | '0' :: 'b' :: ds => asmDigits 2 ds 0
  | ds => asmDigits 10 ds 0

/-- A number below a bound. -/
def asmBounded (bound : Nat) (cs : List Char) : Option Nat :=
  match asmNumber cs with
  | some n => if n < bound then some n else none
  | none => none

/-! ### Fields -/

/-- The value of a field: a word, or a parenthesised profile. -/
inductive AsmValue where
  | word (cs : List Char)
  | profile (p : TimingProfile)
deriving DecidableEq, Repr

/-- Five tick counts, each 0..32767, as a profile in the order of R74. -/
def asmProfile (a b c d e : List Char) : Option TimingProfile :=
  match asmBounded 32768 a, asmBounded 32768 b, asmBounded 32768 c, asmBounded 32768 d, asmBounded 32768 e with
  | some v, some w, some x, some y, some z =>
    some { lowOn := BitVec.ofNat 15 v, lowOff := BitVec.ofNat 15 w, highOn := BitVec.ofNat 15 x,
           highOff := BitVec.ofNat 15 y, reset := BitVec.ofNat 15 z }
  | _, _, _, _, _ => none

/-- The value after an equals sign, and the tokens after it. -/
def asmValue : List AsmToken → Option (AsmValue × List AsmToken)
  | .word v :: rest => some (.word v, rest)
  | .sym '(' :: .word a :: .sym ',' :: .word b :: .sym ',' :: .word c :: .sym ',' :: .word d :: .sym ',' :: .word e ::
      .sym ')' :: rest =>
    match asmProfile a b c d e with
    | some p => some (.profile p, rest)
    | none => none
  | _ => none

/-- The comma-separated fields of a line; the first argument bounds their number. -/
def asmFields : Nat → List AsmToken → Option (List (List Char × AsmValue))
  | 0, _ => none
  | n + 1, .word k :: .sym '=' :: rest =>
    match asmValue rest with
    | some (v, []) => some [(k, v)]
    | some (v, .sym ',' :: more) => (asmFields n more).map ((k, v) :: ·)
    | _ => none
  | _ + 1, _ => none

/-! ### Commands -/

/-- What a line says to do: a command, or a pseudo-command of R75. -/
inductive AsmCommand where
  | instr (i : Instr)
  | install (ch pid : Byte) (man : Bool) (manual : TimingProfile)
  | free (ch : Byte)
  | xlateAll (ch : Byte) (src len dst cap : Word)
deriving DecidableEq, Repr

/-- A line: the name its result is given, if any, and what to do. -/
structure AsmLine where
  result  : Option (List Char)
  command : AsmCommand
deriving DecidableEq, Repr

/-- The results named on earlier lines, latest first; naming is a convenience of the host (R74). -/
abbrev AsmNames := List (List Char × TimingProfile)

/-- The latest profile of a name. -/
def asmLookup : AsmNames → List Char → Option TimingProfile
  | [], _ => none
  | (k, p) :: rest, n => if k = n then some p else asmLookup rest n

/-- The keys of a list of fields. -/
def asmKeys (fs : List (List Char × AsmValue)) : List String := fs.map fun f => String.ofList f.1

/-- A word's value of 8 bits. -/
def asmByte (cs : List Char) : Option Byte := (asmBounded 256 cs).map (BitVec.ofNat 8)

/-- A word's value of 32 bits. -/
def asmWord (cs : List Char) : Option Word := (asmBounded memorySize cs).map (BitVec.ofNat 32)

/-- A word's value of one bit. -/
def asmBit (cs : List Char) : Option Bool := (asmBounded 2 cs).map fun n => n == 1

/-- A profile written out, or named. -/
def asmProf (names : AsmNames) : AsmValue → Option TimingProfile
  | .profile p => some p
  | .word n => asmLookup names n

/-- The profile an omitted `manual=` stands for (R74). -/
def asmZeroProfile : TimingProfile := { lowOn := 0, lowOff := 0, highOn := 0, highOff := 0, reset := 0 }

/-- The operands `pid`, `man` and, optionally, `manual`. -/
def asmResolve (fs : List (List Char × AsmValue)) : Option (Byte × Bool × TimingProfile) :=
  match fs with
  | [(_, .word pid), (_, .word man)] =>
    if asmKeys fs = ["pid", "man"] then
      match asmByte pid, asmBit man with
      | some p, some m => some (p, m, asmZeroProfile)
      | _, _ => none
    else none
  | [(_, .word pid), (_, .word man), (_, .profile q)] =>
    if asmKeys fs = ["pid", "man", "manual"] then
      match asmByte pid, asmBit man with
      | some p, some m => some (p, m, q)
      | _, _ => none
    else none
  | _ => none

/-- The operand `ch` alone. -/
def asmChannel (fs : List (List Char × AsmValue)) : Option Byte :=
  match fs with
  | [(_, .word ch)] => if asmKeys fs = ["ch"] then asmByte ch else none
  | _ => none

/-- The operands `ch`, `src`, `len`, `dst`, `cap`. -/
def asmTranslate (fs : List (List Char × AsmValue)) : Option (Byte × Word × Word × Word × Word) :=
  match fs with
  | [(_, .word ch), (_, .word src), (_, .word len), (_, .word dst), (_, .word cap)] =>
    if asmKeys fs = ["ch", "src", "len", "dst", "cap"] then
      match asmByte ch, asmWord src, asmWord len, asmWord dst, asmWord cap with
      | some c, some s, some l, some d, some k => some (c, s, l, d, k)
      | _, _, _, _, _ => none
    else none
  | _ => none

/-- A mnemonic and its fields as something to do (R74, R75). -/
def asmCommand (names : AsmNames) (mnemonic : String) (fs : List (List Char × AsmValue)) : Option AsmCommand :=
  if mnemonic = "RESOLVE" then
    (asmResolve fs).map fun (p, m, q) => .instr (.resolve p m q)
  else if mnemonic = "BIND" then
    match fs with
    | [(_, .word ch), (_, v)] =>
      if asmKeys fs = ["ch", "prof"] then
        match asmByte ch, asmProf names v with
        | some c, some p => some (.instr (.bind c p))
        | _, _ => none
      else none
    | _ => none
  else if mnemonic = "UNBIND" then (asmChannel fs).map fun c => .instr (.unbind c)
  else if mnemonic = "READPROF" then (asmChannel fs).map fun c => .instr (.readprof c)
  else if mnemonic = "TRANSLATE" then
    (asmTranslate fs).map fun (c, s, l, d, k) => .instr (.translate c s l d k)
  else if mnemonic = "INSTALL" then
    match fs with
    | (_, .word ch) :: more =>
      if (asmKeys fs).head? = some "ch" then
        match asmByte ch, asmResolve more with
        | some c, some (p, m, q) => some (.install c p m q)
        | _, _ => none
      else none
    | _ => none
  else if mnemonic = "FREE" then (asmChannel fs).map .free
  else if mnemonic = "XLATE_ALL" then
    (asmTranslate fs).map fun (c, s, l, d, k) => .xlateAll c s l d k
  else none

/-- The tokens of a line as a line. -/
def asmTokens (names : AsmNames) : List AsmToken → Option AsmLine
  | .word r :: .sym ':' :: .sym '=' :: .word m :: rest =>
    match asmFields (rest.length + 1) rest with
    | some fs => (asmCommand names (String.ofList m) fs).map fun c => { result := some r, command := c }
    | none => none
  | .word m :: rest =>
    match asmFields (rest.length + 1) rest with
    | some fs => (asmCommand names (String.ofList m) fs).map fun c => { result := none, command := c }
    | none => none
  | _ => none

/-- A line of text as a line, given the results named before it; none where the text is not in the form of R74 or R75. -/
def assemble (names : AsmNames) (text : String) : Option AsmLine := asmTokens names (asmLex text.toList [])

/-- What running a line does to the machine. -/
def runAsm (c : AsmCommand) (s : State) : Host.Outcome State Fault Refusal :=
  match c with
  | .instr i => exec i s
  | .install ch pid man manual => runInstall ch pid man manual s
  | .free ch => runFree ch s
  | .xlateAll ch src len dst cap => .next (runXlateAll ch src len dst cap s)

/-! ### Commands as text -/

/-- A profile in parentheses. -/
def profileText (p : TimingProfile) : String :=
  "(" ++ toString p.lowOn.toNat ++ "," ++ toString p.lowOff.toNat ++ "," ++ toString p.highOn.toNat ++ "," ++
    toString p.highOff.toNat ++ "," ++ toString p.reset.toNat ++ ")"

/-- A command in the form of R74. -/
def instrText : Instr → String
  | .resolve pid man m =>
    "RESOLVE pid=" ++ toString pid.toNat ++ ", man=" ++ (if man then "1" else "0") ++ ", manual=" ++ profileText m
  | .bind ch p => "BIND ch=" ++ toString ch.toNat ++ ", prof=" ++ profileText p
  | .unbind ch => "UNBIND ch=" ++ toString ch.toNat
  | .readprof ch => "READPROF ch=" ++ toString ch.toNat
  | .translate ch src len dst cap =>
    "TRANSLATE ch=" ++ toString ch.toNat ++ ", src=" ++ toString src.toNat ++ ", len=" ++ toString len.toNat ++
      ", dst=" ++ toString dst.toNat ++ ", cap=" ++ toString cap.toNat

end Sys2Proof.Machine
end

