-- ==== Sys2Proof/Tests/Slice0.lean ====
section
/-! SUPPORT. The model's own tests, their expected results taken from 95_test_vectors.md and the examples of the rules, and
a named witness for the hypotheses of every obligation that has any. -/

namespace Sys2Proof.Tests

open Sys2Proof Sys2Proof.Machine

/-! ### Small states -/

/-- REF-A of 40_resolver.md R93. -/
def refA : TimingProfile := { lowOn := 14, lowOff := 32, highOn := 28, highOff := 24, reset := 2000 }

/-- REF-B of R93. -/
def refB : TimingProfile := { lowOn := 12, lowOff := 36, highOn := 24, highOff := 24, reset := 3200 }

/-- The manual profile of vectors V5 to V7. -/
def manual12345 : TimingProfile := { lowOn := 1, lowOff := 2, highOn := 3, highOff := 4, reset := 5 }

/-- The reset state with channel 0 bound to REF-A and the given host memory. -/
def boundA (m : Memory) : State := (State.reset.setSlot 0 { bound := true, profile := refA }).setMem m

/-- The source bytes of 95_test_vectors.md 2.4, at 0x1000. -/
def source : Memory := [(0x1000, 0xB0), (0x1001, 0x0F), (0x1002, 0x5A)]

/-- The reset state with a transmission of 16 bytes at 0x1000 Active on channel 7. -/
def busy : State := State.reset.setTracker 7 (.active 0x1000 16)

/-- A state with one interaction pending. -/
def pending (a : Interaction) (s : State) : State := s.setPort [{ agent := .cfg, act := a }]

/-- The next state of an outcome, if it is one. -/
def after : Host.Outcome State Fault Refusal → Option State
  | .next s => some s
  | .fault _ => none
  | .refused _ => none

/-- HA, LA: the entry words of REF-A. -/
def wordHA : Word := 0x0018801C
def wordLA : Word := 0x0020800E

/-! ### WellFormed: a set that breaks each check is refused (00_scope.md R8, R9) -/

/-- A row of one duration in nanoseconds and a reset time in microseconds. -/
def rowOf (key ns us : Nat) : TableRow := { key := key, t0hNs := ns, t0lNs := 0, t1hNs := 0, t1lNs := 0, resetUs := us }

theorem test_wellFormed_reference : Params.reference.wellFormed = true := by decide

theorem test_illFormed_noChannel : ({ Params.reference with numChannels := 0 } : Params).wellFormed = false := by decide

theorem test_illFormed_257Channels : ({ Params.reference with numChannels := 257 } : Params).wellFormed = false := by
  decide

theorem test_wellFormed_256Channels : ({ Params.reference with numChannels := 256 } : Params).wellFormed = true := by
  decide

theorem test_illFormed_clock : ({ Params.reference with srcClkHz := 0 } : Params).wellFormed = false := by decide

theorem test_illFormed_divider : ({ Params.reference with clkDiv := 0 } : Params).wellFormed = false := by decide

theorem test_illFormed_table : ({ Params.reference with table := [] } : Params).wellFormed = false := by decide

theorem test_illFormed_key : ({ Params.reference with table := [rowOf 256 0 0] } : Params).wellFormed = false := by decide

/-- 819 175 ns is the largest duration that fits at 25 ns a tick; 819 176 ns does not (vectors 2.1). -/
theorem test_wellFormed_ticks_edge :
    ({ Params.reference with table := [rowOf 0 819175 819] } : Params).wellFormed = true ∧
    ({ Params.reference with table := [rowOf 0 819176 0] } : Params).wellFormed = false ∧
    ({ Params.reference with table := [rowOf 0 0 820] } : Params).wellFormed = false := by decide

theorem test_build_refuses :
    State.build { Params.reference with clkDiv := 0 } = .refused .configIllFormed := by
  rw [State.build, dif_neg (by decide)]

theorem test_build_reference : State.build Params.reference = .next State.reset := by
  rw [State.build, dif_pos (by decide)]; rfl

/-! ### Tick conversion (vectors 2.1) -/

theorem test_ticks_reference :
    [0, 1, 24, 25, 26, 349, 350, 351, 819175, 819176].map Params.reference.ticksNs =
      [0, 1, 1, 1, 2, 14, 14, 15, 32767, 32768] ∧
    [0, 1, 50, 80, 819, 820].map Params.reference.ticksUs = [0, 40, 2000, 3200, 32760, 32800] := by decide

theorem test_ticks_otherClocks :
    ({ Params.reference with srcClkHz := 26000000, clkDiv := 1 } : Params).ticksNs 1000 = 26 ∧
    ({ Params.reference with srcClkHz := 26000000, clkDiv := 1 } : Params).ticksNs 100 = 3 ∧
    ({ Params.reference with srcClkHz := 3000000, clkDiv := 1 } : Params).ticksNs 1000 = 3 ∧
    ({ Params.reference with srcClkHz := 40000000, clkDiv := 3 } : Params).ticksNs 100 = 2 := by decide

/-! ### Decoding and encoding: words written out from the encoding tables and the vectors -/

/-- V2: OPC 01, CH 00, PID 01, MAN 0. -/
theorem test_decode_resolve : decode [0x00010001, 0, 0, 0] = .ok (.resolve 1 false asmZeroProfile) := rfl

/-- V5 and 30_encoding.md R64: MAN is bit 24; the profile (1,2,3,4,5). -/
theorem test_decode_resolveManual :
    decode [0x01000001, 0x00020001, 0x00040003, 0x00000005] = .ok (.resolve 0 true manual12345) := rfl

/-- V9: every tick count at its largest. -/
theorem test_decode_resolveMax :
    decode [0x01000001, 0x7FFF7FFF, 0x7FFF7FFF, 0x00007FFF] =
      .ok (.resolve 0 true ⟨32767, 32767, 32767, 32767, 32767⟩) := rfl

/-- X6: BIND ch=7, prof=REF-A. -/
theorem test_decode_bind : decode [0x00000702, 0x0020000E, 0x0018001C, 0x000007D0] = .ok (.bind 7 refA) := rfl

theorem test_decode_unbind : decode [0x00000303] = .ok (.unbind 3) := rfl

theorem test_decode_readprof : decode [0x0000FF04] = .ok (.readprof 255) := rfl

/-- Program 2, step 5. -/
theorem test_decode_translate :
    decode [0x00000105, 0x00003001, 0x00000002, 0x00004020, 0x0000000A] = .ok (.translate 1 0x3001 2 0x4020 10) := rfl

/-- 2.5: reserved opcodes, RSV, MAN on TRANSLATE. -/
theorem test_decode_refusedHeaders :
    [0x00000000, 0x00000006, 0x000000FF, 0x02000005, 0x01000005].map (fun h : Word => decode [h]) =
      [.error (.illegalCommand 0x00000000), .error (.illegalCommand 0x00000006), .error (.illegalCommand 0x000000FF),
        .error (.illegalCommand 0x02000005), .error (.illegalCommand 0x01000005)] := rfl

/-- V10 to V13 and X12: CH on RESOLVE, the must-be-0 bits of PROF words even when the manual words are unused, PID on
BIND. -/
theorem test_decode_refusedFields :
    decode [0x00000101, 0, 0, 0] = .error (.illegalCommand 0x00000101) ∧
    decode [0x01000001, 0x00008000, 0, 0] = .error (.illegalCommand 0x01000001) ∧
    decode [0x01000001, 0, 0, 0x00008000] = .error (.illegalCommand 0x01000001) ∧
    decode [0x00000001, 0x80000000, 0, 0] = .error (.illegalCommand 0x00000001) ∧
    decode [0x00010002, 0, 0, 0] = .error (.illegalCommand 0x00010002) := ⟨rfl, rfl, rfl, rfl, rfl⟩

/-- Frames that are no whole command (log entries 3, 24). -/
theorem test_decode_notWhole :
    decode [] = .error .notWhole ∧ decode [0x00000001] = .error .notWhole ∧
    decode [0x00000303, 0] = .error .notWhole ∧ decode [0x00000105, 0, 0, 0] = .error .notWhole := ⟨rfl, rfl, rfl, rfl⟩

/-- The encoder, against the same printed words. -/
theorem test_encode :
    encode (.resolve 1 true manual12345) = [0x01010001, 0x00020001, 0x00040003, 0x00000005] ∧
    encode (.bind 2 refB) = [0x00000202, 0x0024000C, 0x00180018, 0x00000C80] ∧
    encode (.unbind 200) = [0x0000C803] ∧ encode (.readprof 200) = [0x0000C804] ∧
    encode (.translate 0 0x1000 1 0x2000 8) = [0x00000005, 0x00001000, 1, 0x00002000, 8] := by decide

/-- Each row's value, as the opcode table prints it, is an instruction of the row. -/
theorem test_tableWords :
    [0x01, 0x02, 0x03, 0x04, 0x05].map (decodeTableWord 32) =
      [some (.resolve 0 false asmZeroProfile), some (.bind 0 asmZeroProfile), some (.unbind 0), some (.readprof 0),
        some (.translate 0 0 0 0 0)] := by decide

/-- No header word is of two rows of the opcode table. -/
theorem test_tableRows_disjoint :
    opcodeTable.Pairwise fun r q => r.value &&& (r.mask &&& q.mask) ≠ q.value &&& (r.mask &&& q.mask) := by decide

/-- A command placed by the host runs as the first after reset: RESOLVE with PID 1 answers REF-B (V2). -/
theorem test_withFetchWord :
    (after (step (State.reset.withFetchWord 32 0x00010001))).map State.response =
      some [0x0024000C, 0x00180018, 0x00000C80] := by decide

/-! ### RESOLVE (vectors 2.2) -/

/-- V2, V3, V6: the table, the fallback to row 0, the manual profile with the identifier ignored. -/
theorem test_resolve :
    (after (exec (.resolve 1 false manual12345) State.reset)).map State.response =
      some [0x0024000C, 0x00180018, 0x00000C80] ∧
    (after (exec (.resolve 2 false asmZeroProfile) State.reset)).map State.response =
      some [0x0020000E, 0x0018001C, 0x000007D0] ∧
    (after (exec (.resolve 1 true manual12345) State.reset)).map State.response =
      some [0x00020001, 0x00040003, 0x00000005] := by decide

/-! ### BIND, UNBIND, READPROF (vectors 2.3) -/

/-- X4, X5: a second BIND replaces the profile; channel 8 of 8 is refused. -/
theorem test_bind :
    (after (exec (.bind 0 refB) (boundA []))).map (fun t => t.slot 0) = some { bound := true, profile := refB } ∧
    (after (exec (.bind 8 refA) State.reset)).map (fun t => (t.ctx == State.reset.ctx, t.refused, t.faults)) =
      some (true, true, []) := by decide

/-- X13: a BIND in flight is a hazard and changes nothing. -/
theorem test_bind_inFlight :
    (after (exec (.bind 7 refA) busy)).map (fun t => ((t.slot 7).bound, t.faults)) =
      some (false, [.hazardViolation 7 none]) := by decide

/-- X7, X9: UNBIND clears the bit; out of range it does nothing. -/
theorem test_unbind :
    (after (exec (.unbind 0) (boundA []))).map (fun t => (t.slot 0).bound) = some false ∧
    after (exec (.unbind 200) State.reset) = some State.reset := by decide

/-- X14. -/
theorem test_unbind_inFlight :
    (after (exec (.unbind 7) busy)).map State.faults = some [.hazardViolation 7 none] := by decide

/-- X3. -/
theorem test_readprof_bound :
    (after (exec (.readprof 0) (boundA []))).map State.response =
      some [0x00000001, 0x0020000E, 0x0018001C, 0x000007D0] := by decide

/-- X10: the stale profile of an unbound slot is not shown. -/
theorem test_readprof_stale :
    (after (exec (.readprof 0) (State.reset.setSlot 0 { bound := false, profile := refB }))).map State.response =
      some [0, 0, 0, 0] := by decide

/-! ### TRANSLATE (vectors 2.4) -/

/-- T5: one byte of the three, slots 8 on untouched (0x2020 keeps its byte). -/
theorem test_translate_T5 :
    (after (exec (.translate 0 0x1000 3 0x2000 15) (boundA (source ++ [(0x2020, 0xEF)])))).map
      (fun t => (t.response, t.mem.readWords 0x2000 8, t.mem.readWord 0x2020)) =
    some ([1, 8], [wordHA, wordLA, wordHA, wordHA, wordLA, wordLA, wordLA, wordLA], 0x000000EF) := by decide

/-- T12, T14, T16, T18, T20: the faults and their order; T2, T8, T9, T10, T13: (0, 0), with no fault and no access. -/
theorem test_translate_faults :
    [exec (.translate 0 0x1000 1 0x2002 8) (boundA source), exec (.translate 0 0xFFFFFFFF 2 0x2000 16) (boundA source),
      exec (.translate 0 0x1000 1 0xFFFFFFE4 8) (boundA source), exec (.translate 0 0x1000 1 0x0FE4 8) (boundA source),
      exec (.translate 0 0x1000 1 0x1001 8) (boundA source)].map (fun o => (after o).map State.faults) =
    [some [.misaligned 0x2002], some [.addressRange 0xFFFFFFFF 0x2000], some [.addressRange 0x1000 0xFFFFFFE4],
      some [.overlap 0x1000 0x0FE4], some [.misaligned 0x1001]] ∧
    [exec (.translate 0 0x1000 3 0x2000 5) (boundA source), exec (.translate 0 0x1000 0 0x2000 64) (boundA source),
      exec (.translate 1 0x1000 3 0x2000 64) (boundA source), exec (.translate 8 0x1000 3 0x2000 64) (boundA source),
      exec (.translate 0 0x1000 1 0x2002 7) (boundA source)].map
      (fun o => (after o).map fun t => (t.response, t.faults, t.mem == source)) =
    List.replicate 5 (some ([0, 0], [], true)) := by decide

/-- The profile corner cases of R133: bits of every duration at its largest, and the zero profile. -/
theorem test_entryWord_corners :
    entryWord false ⟨32767, 32767, 0, 0, 0⟩ = 0x7FFFFFFF ∧ entryWord true ⟨0, 0, 32767, 32767, 0⟩ = 0x7FFFFFFF ∧
    entryWord true manual12345 = 0x00048003 ∧ entryWord false manual12345 = 0x00028001 ∧
    entryWord true asmZeroProfile = 0x00008000 := by decide

/-- The little-endian image of HA (2.4): 1C 80 18 00. -/
theorem test_littleEndian :
    Memory.writeWord [] 0x2000 wordHA = [(0x2000, 0x1C), (0x2001, 0x80), (0x2002, 0x18)] ∧
    (Memory.writeWord [] 0x2000 wordHA).readBytes 0x2000 4 = [0x1C, 0x80, 0x18, 0x00] := by decide

/-! ### Host events (Program 4) -/

/-- Step 6: a host write of a source byte in flight; step 8: TX_BEGIN on an Active channel. -/
theorem test_hazards :
    (hostWrite 0x1000 1 busy).faults = [.hazardViolation 7 (some 0x1000)] ∧ (hostWrite 0x1000 1 busy).mem = [] ∧
    (txBegin 7 0x1000 1 busy).faults = [.hazardViolation 7 none] := by decide

/-- A host write just below and just above the source range is stored. -/
theorem test_hostWrite_edges :
    (hostWrite 0x0FFF 1 busy).mem = [(0x0FFF, 1)] ∧ (hostWrite 0x1010 1 busy).mem = [(0x1010, 1)] ∧
    (hostWrite 0x1010 1 busy).faults = [] := by decide

/-- R190: a reset in flight is refused. -/
theorem test_reset_inFlight : powerOnReset busy = .refused .resetDuringActivity := rfl

/-! ### Text and pseudo-commands (30_encoding.md R74, R75) -/

theorem test_assemble_resolve :
    assemble [] "P := RESOLVE pid=0, man=0 ; table" =
      some { result := some ['P'], command := .instr (.resolve 0 false asmZeroProfile) } := by decide

theorem test_assemble_named :
    assemble [(['P'], refA)] "BIND ch=0, prof=P" = some { result := none, command := .instr (.bind 0 refA) } := by decide

theorem test_assemble_outOfRange :
    assemble [] "BIND ch=256, prof=(1,2,3,4,5)" = none ∧ assemble [] "BIND ch=0, prof=(32768,2,3,4,5)" = none := by decide

/-- Variant 2a and Program 2 with one byte: XLATE_ALL with a capacity of 7 stops at once; with 10 it ends by (0, 0). -/
theorem test_xlateAll :
    (runXlateAll 0 0x1000 1 0x2000 7 (boundA source)).response = [0, 0] ∧
    (runXlateAll 0 0x1000 1 0x2000 10 (boundA source)).response = [1, 8, 0, 0] := by decide

/-- R10: sums are unbounded. With dst = 0xFFFFFFE0 the second call's entry buffer would lie at 2^32, so it is not made and
address 0 stays; at the top of memory with one byte the whole buffer is written. -/
theorem test_xlateAll_doesNotWrap :
    (runXlateAll 0 0x1000 2 0xFFFFFFE0 8 (boundA source)).response = [1, 8] ∧
    (runXlateAll 0 0x1000 2 0xFFFFFFE0 8 (boundA source)).mem.readWord 0 = 0 ∧
    (runXlateAll 0 0x1000 1 0xFFFFFFE0 8 (boundA source)).mem.readWord 0xFFFFFFFC = wordLA := by decide

theorem test_install :
    (after (runInstall 1 1 false asmZeroProfile State.reset)).map (fun t => t.slot 1) =
      some { bound := true, profile := refB } := by decide

/-! ### Witnesses: for every obligation with hypotheses, a state and operands that meet them all, one for each clause -/

theorem reset_inv : State.reset.Inv := ⟨by decide, by decide, by decide⟩

theorem boundA_inv : (boundA source).Inv := ⟨by decide, by decide, by decide⟩

theorem busy_inv : busy.Inv := ⟨by decide, by decide, by decide⟩

theorem witness_EncodeOfDecode : decode (encode (.translate 1 0x3001 2 0x4020 10)) = .ok (.translate 1 0x3001 2 0x4020 10) :=
  rfl

/-- 0x00, 0x06 and 0xFF. -/
theorem witness_ReservedOpcodeRefused :
    (pending (.command [0x00000100, 7]) State.reset).port =
      { agent := .cfg, act := .command (0x00000100 :: [7]) } :: [] ∧
    (0x00000100#32).extractLsb' 0 8 = 0x00#8 ∧ 0x06 ≤ ((0x00000006#32).extractLsb' 0 8).toNat ∧
    0x06 ≤ ((0x000000FF#32).extractLsb' 0 8).toNat := by decide

/-- The lowest and the highest bit of each must-be-0 field. -/
theorem witness_MustBeZeroBitRefused :
    (pending (.command [0x02000005]) State.reset).port =
      { agent := .cfg, act := .command (0x02000005 :: []) } :: [] ∧
    (0x02000005#32).extractLsb' 25 7 ≠ 0#7 ∧ (0x80000003#32).extractLsb' 25 7 ≠ 0#7 ∧
    ((0x00000101#32).extractLsb' 0 8 = 0x01#8 ∧ (0x00000101#32).extractLsb' 8 8 ≠ 0#8) ∧
    ((0x00008001#32).extractLsb' 0 8 = 0x01#8 ∧ (0x00008001#32).extractLsb' 8 8 ≠ 0#8) ∧
    (0x02 ≤ ((0x00010002#32).extractLsb' 0 8).toNat ∧ ((0x00010002#32).extractLsb' 0 8).toNat ≤ 0x05 ∧
      (0x00010002#32).extractLsb' 16 9 ≠ 0#9) ∧
    (0x02 ≤ ((0x01000005#32).extractLsb' 0 8).toNat ∧ ((0x01000005#32).extractLsb' 0 8).toNat ≤ 0x05 ∧
      (0x01000005#32).extractLsb' 16 9 ≠ 0#9) ∧
    (0x00008000#32).getLsbD 15 = true ∧ (0x80000000#32).getLsbD 31 = true ∧
    (0x00008000#32).extractLsb' 15 17 ≠ 0#17 ∧ (0x80000000#32).extractLsb' 15 17 ≠ 0#17 := by decide

theorem witness_StepRunsDecodedCommand :
    (pending (.command [0x00000303]) State.reset).port = { agent := .cfg, act := .command [0x00000303] } :: [] ∧
    decode [0x00000303] = .ok (.unbind 3) := ⟨rfl, rfl⟩

/-- Two agents, their interactions interleaved. -/
def twoAgents : State :=
  State.reset.setPort [{ agent := .svc 1, act := .command [0x00000004] }, { agent := .cfg, act := .hostWrite 0 1 },
    { agent := .svc 1, act := .command [0x00000104] }]

theorem witness_StepAcceptsInIssueOrder :
    State.reset.port = [] ∧ twoAgents.port = { agent := .svc 1, act := .command [0x00000004] } ::
      [{ agent := .cfg, act := .hostWrite 0 1 }, { agent := .svc 1, act := .command [0x00000104] }] ∧
    (∃ t, step twoAgents = .next t) ∧ Agent.cfg ≠ Agent.svc 1 := ⟨rfl, rfl, ⟨_, rfl⟩, by decide⟩

theorem witness_OnlyTwoStops :
    step (pending (.command [0x00000305, 0]) State.reset) = .fault .commandNotWhole ∧
    step (pending .powerOnReset busy) = .refused .resetDuringActivity := ⟨rfl, rfl⟩

/-- One operand word too few, as many as R65 says, and one too many. -/
theorem witness_WholeFramesHaveTheLengthOfTheirOpcode :
    opcodeOf (hdrOpc 0x00000305) = some .translate ∧ hdrLegal .translate 0x00000305 = true ∧
    decode [0x00000305, 0, 0, 0] = .error .notWhole ∧ [(0 : Word), 0, 0].length ≠ operandWords .translate ∧
    decode [0x00000305, 0, 0, 0, 0] = .ok (.translate 3 0 0 0 0) ∧
    decode [0x00000305, 0, 0, 0, 0, 0] = .error .notWhole := ⟨rfl, rfl, rfl, by decide, rfl, rfl⟩

/-- The second row has key 1 and no earlier row has it; identifier 2 is no row's key. -/
theorem witness_RowLookupFirstMatchElseRowZero :
    Config.reference.params.table[1]? = some refRowB ∧ refRowB.key = 1 ∧
    (∀ (j : Nat) (q : TableRow), j < 1 → Config.reference.params.table[j]? = some q → q.key ≠ 1) ∧
    (∀ r ∈ Config.reference.params.table, r.key ≠ 2) := by
  refine ⟨rfl, rfl, fun j q hj hq => ?_, by decide⟩
  have : j = 0 := by omega
  subst this
  have hq' : some refRowA = some q := hq
  cases hq'
  decide

/-- 350 ns is a whole number of ticks; 351 ns is not. -/
theorem witness_TickConversionLaws :
    Params.reference.wellFormed = true ∧ Params.reference.clkDiv * 1000000000 ∣ 350 * Params.reference.srcClkHz ∧
    ¬ Params.reference.clkDiv * 1000000000 ∣ 351 * Params.reference.srcClkHz ∧
    351 * Params.reference.srcClkHz < 15 * (Params.reference.clkDiv * 1000000000) := by decide

theorem witness_BindWritesTheWholeSlot :
    (boundA source).Inv ∧ (0#8).toNat < (boundA source).numChannels ∧ (boundA source).tracker (0#8).toNat = .idle :=
  ⟨boundA_inv, by decide, by decide⟩

/-- The first number out of range, and the highest. -/
theorem witness_BindOutOfRangeRefused :
    State.reset.numChannels ≤ (8#8).toNat ∧ State.reset.numChannels ≤ (255#8).toNat := by decide

theorem witness_ContextChangeInFlightFaults : (7#8).toNat < busy.numChannels ∧ busy.tracker (7#8).toNat ≠ .idle := by
  decide

/-- The last channel, and a bound one. -/
theorem witness_UnbindRemovesTheContext :
    (boundA source).Inv ∧ (7#8).toNat < (boundA source).numChannels ∧ (boundA source).tracker (7#8).toNat = .idle ∧
    (0#8).toNat < (boundA source).numChannels ∧ (boundA source).tracker (0#8).toNat = .idle ∧
    ((boundA source).slot (0#8).toNat).bound = true := ⟨boundA_inv, by decide⟩

/-- Out of range; in range, Idle and not bound. -/
theorem witness_UnbindOfNothingHasNoEffect :
    State.reset.numChannels ≤ (8#8).toNat ∧
    (State.reset.tracker (7#8).toNat = .idle ∧ (State.reset.slot (7#8).toNat).bound = false) := by decide

theorem witness_BindThenReadprofReadsBack :
    State.reset.Inv ∧ (7#8).toNat < State.reset.numChannels ∧ State.reset.tracker (7#8).toNat = .idle :=
  ⟨reset_inv, by decide⟩

/-- A bound slot, an unbound one and a channel number out of range. -/
theorem witness_ReadprofAnswersTheContext :
    ((0#8).toNat < (boundA source).numChannels ∧ ((boundA source).slot (0#8).toNat).bound = true) ∧
    ¬ ((7#8).toNat < (boundA source).numChannels ∧ ((boundA source).slot (7#8).toNat).bound = true) ∧
    ¬ ((8#8).toNat < (boundA source).numChannels ∧ ((boundA source).slot (8#8).toNat).bound = true) := by decide

theorem witness_ChannelsAreIndependent :
    instrChannel (.bind 0 refA) ≠ some 7 ∧ instrChannel (.resolve 0 false refA) ≠ some 0 := by decide

theorem witness_OnlyTranslateReachesMemory :
    (isTranslate (.bind 0 refA) = false ∧ ∃ t, exec (.bind 0 refA) State.reset = .next t) ∧
    ∃ t, exec (.translate 0 0x1000 1 0x2000 8) (boundA source) = .next t ∧ t.mem ≠ source :=
  ⟨⟨rfl, _, rfl⟩, _, rfl, by decide⟩

theorem witness_BufferEntriesMsbFirst : [0xB0#8, 0x0F#8][1]? = some 0x0F#8 ∧ 7 < 8 := by decide

/-- The highest word of host memory. -/
theorem witness_EntryWritesAreLittleEndian : Memory.wf source = true ∧ 0xFFFFFFFC + 4 ≤ memorySize := by decide

/-- An unbound channel, and one out of range. -/
theorem witness_TranslateWithoutContextGivesZero :
    ¬ ((7#8).toNat < (boundA source).numChannels ∧ ((boundA source).slot (7#8).toNat).bound = true) ∧
    ¬ ((8#8).toNat < (boundA source).numChannels ∧ ((boundA source).slot (8#8).toNat).bound = true) := by decide

theorem witness_TranslateWithoutRoomGivesZero : (7#32).toNat < 8 ∧ (0#32) = 0#32 := by decide

theorem witness_XlateAllTooSmallStopsAtOnce : (7#32).toNat < 8 ∧ (0#32).toNat < 8 := by decide

/-- T15, T17 and T19: the last source byte, the last entry slots, entries that end just below the source. -/
theorem witness_TranslateWritesTheEntries :
    (boundA source).Inv ∧ (0#8).toNat < (boundA source).numChannels ∧ ((boundA source).slot (0#8).toNat).bound = true ∧
    1 = min ((8#32).toNat / 8) (1#32).toNat ∧ RangesFit (0xFFFFFFFF#32).toNat (0x2000#32).toNat 1 ∧
    RangesFit (0x1000#32).toNat (0xFFFFFFE0#32).toNat 1 ∧ RangesFit (0x1000#32).toNat (0x0FE0#32).toNat 1 := by
  refine ⟨boundA_inv, ?_⟩
  unfold RangesFit
  decide

/-- T14, T16, T12, T18, and an entry buffer that begins at the source. -/
theorem witness_TranslateFaultsInOrder :
    (0#8).toNat < (boundA source).numChannels ∧ ((boundA source).slot (0#8).toNat).bound = true ∧
    2 = min ((16#32).toNat / 8) (2#32).toNat ∧ 1 = min ((8#32).toNat / 8) (1#32).toNat ∧
    memorySize < (0xFFFFFFFF#32).toNat + 2 ∧ memorySize < (0xFFFFFFE4#32).toNat + 32 * 1 ∧
    ((0x1000#32).toNat + 1 ≤ memorySize ∧ (0x2002#32).toNat + 32 * 1 ≤ memorySize ∧ (0x2002#32).toNat % 4 ≠ 0) ∧
    ((0x0FE4#32).toNat % 4 = 0 ∧ (0x1000#32).toNat < (0x0FE4#32).toNat + 32 * 1 ∧
      (0x0FE4#32).toNat < (0x1000#32).toNat + 1) ∧
    ((0x1000#32).toNat % 4 = 0 ∧ (0x1000#32).toNat < (0x1000#32).toNat + 32 * 1 ∧
      (0x1000#32).toNat < (0x1000#32).toNat + 1) := by decide

/-- T5. -/
theorem witness_TranslateCountLaws :
    ∃ t, exec (.translate 0 0x1000 3 0x2000 15) (boundA source) = .next t ∧
      t.response = (boundA source).response ++ [1, 8] := ⟨_, rfl, by decide⟩

/-- Another clock and another table, with as many channels. -/
theorem witness_TranslateNeverReadsTheTable :
    ∃ c : Config, c.params.numChannels = State.reset.numChannels ∧ c ≠ State.reset.cfg :=
  ⟨{ params := { Params.reference with clkDiv := 4, table := [refRowB] }, ok := by decide }, by decide, by decide⟩

theorem witness_TranslateRepeatedWritesTheSame :
    (boundA source).Inv ∧ ∃ t, exec (.translate 0 0x1000 1 0x2000 8) (boundA source) = .next t ∧
      t.faults = (boundA source).faults ∧ t.mem ≠ (boundA source).mem := ⟨boundA_inv, _, rfl, rfl, by decide⟩

/-- Two slices of one buffer into two adjoining entry buffers, the lower one adjoining the source. -/
theorem witness_TwoTranslatesCommute :
    (boundA source).Inv ∧
    (let n₁ := min ((8#32).toNat / 8) (1#32).toNat
     let n₂ := min ((8#32).toNat / 8) (1#32).toNat
     ((0x0FE0#32).toNat + 32 * n₁ ≤ (0x1001#32).toNat ∨ (0x1001#32).toNat + n₂ ≤ (0x0FE0#32).toNat) ∧
     ((0x0FC0#32).toNat + 32 * n₂ ≤ (0x1000#32).toNat ∨ (0x1000#32).toNat + n₁ ≤ (0x0FC0#32).toNat) ∧
     ((0x0FE0#32).toNat + 32 * n₁ ≤ (0x0FC0#32).toNat ∨ (0x0FC0#32).toNat + 32 * n₂ ≤ (0x0FE0#32).toNat)) :=
  ⟨boundA_inv, by decide⟩

/-- Program 2's capacities, and one call that offers too little; the last buffer ends just below the source. -/
def calls : List DriverCall :=
  [{ cap := 10, dst := 0x2000 }, { cap := 7, dst := 0x2020 }, { cap := 10, dst := 0x2020 }, { cap := 8, dst := 0x0FE0 }]

theorem witness_DriverStreamsTheBuffer :
    (boundA source).Inv ∧ (0#8).toNat < (boundA source).numChannels ∧ ((boundA source).slot (0#8).toNat).bound = true ∧
    (0x1000#32).toNat + (3#32).toNat ≤ memorySize ∧
    (∀ k ∈ calls, k.dst.toNat % 4 = 0 ∧ k.dst.toNat + 32 * (k.cap.toNat / 8) ≤ memorySize ∧
      (k.dst.toNat + 32 * (k.cap.toNat / 8) ≤ (0x1000#32).toNat ∨
        (0x1000#32).toNat + (3#32).toNat ≤ k.dst.toNat)) := ⟨boundA_inv, by decide⟩

theorem witness_DriverLoopEnds :
    let ks := calls.filter fun k => decide (8 ≤ k.cap.toNat)
    (boundA source).Inv ∧ (0#8).toNat < (boundA source).numChannels ∧ ((boundA source).slot (0#8).toNat).bound = true ∧
    (0x1000#32).toNat + (3#32).toNat ≤ memorySize ∧
    (∀ k ∈ ks, 8 ≤ k.cap.toNat ∧ k.dst.toNat % 4 = 0 ∧ k.dst.toNat + 32 * (k.cap.toNat / 8) ≤ memorySize ∧
      (k.dst.toNat + 32 * (k.cap.toNat / 8) ≤ (0x1000#32).toNat ∨
        (0x1000#32).toNat + (3#32).toNat ≤ k.dst.toNat)) ∧
    (3#32).toNat ≤ ks.length := ⟨boundA_inv, by decide⟩

theorem witness_XlateAllEncodesTheBuffer :
    (boundA source).Inv ∧ (0#8).toNat < (boundA source).numChannels ∧ ((boundA source).slot (0#8).toNat).bound = true ∧
    8 ≤ (8#32).toNat ∧ RangesFit (0x1000#32).toNat (0x2000#32).toNat (3#32).toNat := by
  refine ⟨boundA_inv, ?_⟩
  unfold RangesFit
  decide

/-- An address below and one above a region that passes the top of host memory. -/
theorem witness_XlateAllWritesOnlyItsRegion :
    0 < (0xFFFFFFE0#32).toNat ∧ (0xFFFFFFE0#32).toNat + 32 * (2#32).toNat ≤ 0x100000020 := by decide

theorem witness_InstallBindsTheResolvedProfile :
    State.reset.Inv ∧ (7#8).toNat < State.reset.numChannels ∧ State.reset.tracker (7#8).toNat = .idle :=
  ⟨reset_inv, by decide, by decide⟩

/-- Only channel 7's range is Active, and it is 0x1000 to 0x100F. -/
theorem busy_active {c : Nat} {base len : Word} (h : busy.tracker c = .active base len) :
    c = 7 ∧ base = 0x1000 ∧ len = 16 := by
  by_cases hc : c < 8
  · have key : ∀ k : Fin 8, busy.tracker k = .idle ∨ (k.val = 7 ∧ busy.tracker k = .active 0x1000 16) := by decide
    rcases key ⟨c, hc⟩ with e | ⟨e, e'⟩
    · rw [show busy.tracker c = .idle from e] at h; cases h
    · rw [show busy.tracker c = .active 0x1000 16 from e'] at h; cases h; exact ⟨e, rfl, rfl⟩
  · have : busy.tracker c = .idle := by
      rw [State.tracker, List.getD_eq_getElem?_getD, List.getElem?_eq_none (show busy.tx.length ≤ c from Nat.le_of_not_lt hc)]; rfl
    rw [this] at h; cases h

/-- The address just above an active range and the one just below. -/
theorem witness_HostWriteStoresTheByte :
    (pending (.hostWrite 0x1010 1) busy).Inv ∧
    (pending (.hostWrite 0x1010 1) busy).port = { agent := .cfg, act := .hostWrite 0x1010 1 } :: [] ∧
    (pending (.hostWrite 0x1010 1) busy).freeAddress 0x1010 ∧
    (pending (.hostWrite 0x0FFF 1) busy).freeAddress 0x0FFF := by
  refine ⟨busy_inv, rfl, fun c base len _ h => ?_, fun c base len _ h => ?_⟩
  all_goals obtain ⟨_, rfl, rfl⟩ := busy_active (c := c) h; decide

/-- The first and the last byte of an active range. -/
theorem witness_HostWriteInFlightFaults :
    (pending (.hostWrite 0x1000 1) busy).port = { agent := .cfg, act := .hostWrite 0x1000 1 } :: [] ∧
    7 < busy.numChannels ∧ busy.tracker 7 = .active 0x1000 16 ∧ (0x1000#32).toNat ≤ (0x1000#32).toNat ∧
    (0x100F#32).toNat < (0x1000#32).toNat + (16#32).toNat := by decide

/-- TX_BEGIN out of range, in flight and on an idle channel; TX_END on an Active, an Idle and a missing channel. -/
theorem witness_TransmissionEvents :
    (pending (.txBegin 8 0x1000 1) busy).Inv ∧
    (pending (.txBegin 8 0x1000 1) busy).port = { agent := .cfg, act := .txBegin 8 0x1000 1 } :: [] ∧
    busy.numChannels ≤ 8 ∧ (7 < busy.numChannels ∧ busy.tracker 7 ≠ .idle) ∧
    (0 < busy.numChannels ∧ busy.tracker 0 = .idle) ∧
    (pending (.txEnd 7) busy).port = { agent := .cfg, act := .txEnd 7 } :: [] ∧ busy.tracker 8 = .idle := by
  refine ⟨busy_inv, ?_⟩
  decide

/-- A BIND in flight; and a TRANSLATE whose entries land in the range of another channel's transmission, the one case in
which a source byte in flight changes (log entry 12). -/
theorem witness_InFlightDataIsStable :
    (pending (.command (encode (.translate 0 0x3000 1 0x1000 8)))
      ((boundA source).setTracker 7 (.active 0x1000 16))).Inv ∧
    ∃ t, step (pending (.command (encode (.translate 0 0x3000 1 0x1000 8)))
        ((boundA source).setTracker 7 (.active 0x1000 16))) = .next t ∧
      ((boundA source).setTracker 7 (.active 0x1000 16)).tracker 7 = .active 0x1000 16 ∧
      (0x1000#32).toNat ≤ 0x1000 ∧ t.mem.read 0x1000 ≠ (boundA source).mem.read 0x1000 :=
  ⟨⟨by decide, by decide, by decide⟩, _, rfl, by decide, by decide, by decide⟩

theorem witness_StepKeepsTheInvariant :
    (pending (.command (encode (.translate 0 0x1000 1 0x2000 8))) (boundA source)).Inv ∧
    ∃ t, step (pending (.command (encode (.translate 0 0x1000 1 0x2000 8))) (boundA source)) = .next t ∧
      t.mem ≠ source := ⟨⟨by decide, by decide, by decide⟩, _, rfl, by decide⟩

/-- The last channel of the reference set. -/
theorem witness_ResetStateOfTheBlock : 7 < Config.reference.params.numChannels := by decide

theorem witness_PowerOnResetStep :
    (pending .powerOnReset (boundA source)).port = { agent := .cfg, act := .powerOnReset } :: [] ∧
    (∀ c, (pending .powerOnReset (boundA source)).tracker c = .idle) ∧
    ∃ c, (pending .powerOnReset busy).tracker c ≠ .idle := by
  refine ⟨rfl, fun c => ?_, 7, by decide⟩
  by_cases hc : c < 8
  · have key : ∀ k : Fin 8, State.reset.tracker k = .idle := by decide
    exact key ⟨c, hc⟩
  · show State.reset.tracker c = .idle
    rw [State.tracker, List.getD_eq_getElem?_getD, List.getElem?_eq_none (show State.reset.tx.length ≤ c from Nat.le_of_not_lt hc)]; rfl

theorem witness_ConfigurationIsConstant :
    ∃ t, step (pending (.command (encode (.bind 0 refA))) State.reset) = .next t ∧ t.cfg = State.reset.cfg :=
  ⟨_, rfl, rfl⟩

/-- A state with a refusal recorded, and a reserved opcode next. -/
theorem witness_RecordsAreSticky :
    ∃ t, step (pending (.command [0x00000006]) (State.reset.refuse (.illegalChannel 8))) = .next t ∧
      (pending (.command [0x00000006]) (State.reset.refuse (.illegalChannel 8))).noResetNext ∧
      (State.reset.refuse (.illegalChannel 8)).refused = true := by
  refine ⟨_, rfl, fun p ps h => ?_, rfl⟩
  cases h
  decide

/-- A command that faults, one that is refused and one that responds. -/
theorem witness_FaultedCommandLeavesOnlyItsRecord :
    (∃ t, exec (.bind 7 refA) busy = .next t ∧ t.faults ≠ busy.faults) ∧
    (∃ t, exec (.bind 8 refA) busy = .next t ∧ t.refusals ≠ busy.refusals) ∧
    (∃ t, exec (.readprof 7) busy = .next t ∧ t.response ≠ busy.response) :=
  ⟨⟨_, rfl, by decide⟩, ⟨_, rfl, by decide⟩, ⟨_, rfl, by decide⟩⟩

/-- Two states that differ only in the profile of an unbound slot. -/
theorem witness_StaleProfilesAreUnobservable :
    State.reset.observable = (State.reset.setSlot 0 { bound := false, profile := refB }).observable ∧
    State.reset ≠ State.reset.setSlot 0 { bound := false, profile := refB } := by decide

end Sys2Proof.Tests
end

/-! # Proofs of the scope family: parameter sets, the table's tick counts, XLATE_ALL -/

section
/-! ## Parameter sets and the profiles of the table (00_scope.md R8, R9; 40_resolver.md R92, R94) -/

namespace Sys2Proof.Machine

theorem forall_mem_rowTicks {p : Params} {r : TableRow} {P : Nat → Prop} : (∀ t ∈ p.rowTicks r, P t) ↔
    P (p.ticksNs r.t0hNs) ∧ P (p.ticksNs r.t0lNs) ∧ P (p.ticksNs r.t1hNs) ∧ P (p.ticksNs r.t1lNs) ∧
      P (p.ticksUs r.resetUs) := by
  simp [Params.rowTicks]

theorem mem_of_findRow_eq_some {rows : List TableRow} {pid : Nat} {r : TableRow} (h : findRow rows pid = some r) :
    r ∈ rows := by
  induction rows with
  | nil => cases h
  | cons q rest ih =>
    rw [findRow] at h
    split at h
    · cases h; exact List.mem_cons_self
    · exact List.mem_cons_of_mem _ (ih h)

/-- R94's row is a row of the table: the first with the key, or row 0, which a built set has. -/
theorem rowFor_mem_table (c : Config) (pid : Nat) : rowFor c pid ∈ c.params.table := by
  rw [rowFor]
  cases h : findRow c.params.table pid with
  | some r => exact mem_of_findRow_eq_some h
  | none =>
    obtain ⟨r, rest, e⟩ := List.exists_cons_of_length_pos c.table_pos
    simp [e]

theorem tickOf_toNat {n : Nat} (h : n ≤ 32767) : (tickOf n).toNat = n := by
  rw [tickOf, BitVec.toNat_ofNat, Nat.mod_eq_of_lt (by omega)]

/-- Settles O17: R9's check of a built set bounds every tick count of its rows, so the narrowing to 15 bits loses
nothing. -/
theorem tableProfileHoldsExactTicks : Obligations.TableProfileHoldsExactTicks := by
  unfold Obligations.TableProfileHoldsExactTicks
  intro c pid
  obtain ⟨h0h, h0l, h1h, h1l, hreset⟩ := forall_mem_rowTicks.1 (c.ticks_fit (rowFor_mem_table c pid))
  exact ⟨tickOf_toNat h0h, tickOf_toNat h0l, tickOf_toNat h1h, tickOf_toNat h1l, tickOf_toNat hreset⟩

/-- The check of a parameter set in the words of R8 and R9, with each row's conditions together. -/
theorem wellFormed_iff_bounds {p : Params} : p.wellFormed = true ↔
    1 ≤ p.numChannels ∧ p.numChannels ≤ 256 ∧ 1 ≤ p.srcClkHz ∧ 1 ≤ p.clkDiv ∧ 1 ≤ p.table.length ∧
      ∀ r ∈ p.table, r.key < 256 ∧ p.ticksNs r.t0hNs ≤ 32767 ∧ p.ticksNs r.t0lNs ≤ 32767 ∧
        p.ticksNs r.t1hNs ≤ 32767 ∧ p.ticksNs r.t1lNs ≤ 32767 ∧ p.ticksUs r.resetUs ≤ 32767 := by
  simp only [Params.wellFormed_iff, Params.numProtocols, forall_mem_rowTicks, forall₂_and, and_assoc]

/-- Building answers the reset state of a well-formed set, and refuses every other (R9, R165). -/
theorem build_cases (p : Params) :
    (p.wellFormed = true ∧ ∃ c : Config, c.params = p ∧ State.build p = .next (State.resetWith c)) ∨
    (¬ p.wellFormed = true ∧ State.build p = .refused .configIllFormed) := by
  by_cases h : p.wellFormed = true
  · exact .inl ⟨h, ⟨p, h⟩, rfl, dif_pos h⟩
  · exact .inr ⟨h, dif_neg h⟩

/-- Settles O18, by the two branches of `State.build` and R9's check read as its conditions. -/
theorem illFormedParametersNotBuilt : Obligations.IllFormedParametersNotBuilt := by
  unfold Obligations.IllFormedParametersNotBuilt
  intro p
  rw [← wellFormed_iff_bounds]
  exact build_cases p

end Sys2Proof.Machine
end

section
/-! ## XLATE_ALL (30_encoding.md R75) -/

namespace Sys2Proof.Machine

/-- Translating n + k bytes is translating the first n, then the k behind them. -/
theorem translateBytes_add (p : TimingProfile) (n k src dst : Nat) (m : Memory) :
    translateBytes p (n + k) src dst m =
      translateBytes p k (src + n) (dst + 32 * n) (translateBytes p n src dst m) := by
  induction n generalizing src dst m with
  | zero => simp [translateBytes]
  | succ n ih =>
    rw [show n + 1 + k = n + k + 1 by omega, translateBytes, translateBytes, ih,
      show src + 1 + n = src + (n + 1) by omega, show dst + 32 + 32 * n = dst + 32 * (n + 1) by omega]

/-- The state a TRANSLATE of n bytes leaves when it meets no fault, its operands given as numbers. -/
def afterTranslate (ch : Byte) (n src dst : Nat) (s : State) : State :=
  (s.setMem (translateBytes (s.slot ch.toNat).profile n src dst s.mem)).respond [countWord n, countWord (8 * n)]

section
variable (ch : Byte) (n src dst : Nat) (s : State)

@[simp] theorem afterTranslate_mem :
    (afterTranslate ch n src dst s).mem = translateBytes (s.slot ch.toNat).profile n src dst s.mem := rfl

@[simp] theorem afterTranslate_faults : (afterTranslate ch n src dst s).faults = s.faults := rfl

@[simp] theorem afterTranslate_slot (k : Nat) : (afterTranslate ch n src dst s).slot k = s.slot k := rfl

@[simp] theorem afterTranslate_avail (k : Nat) : (afterTranslate ch n src dst s).avail k = s.avail k := rfl

end

/-- One turn of XLATE_ALL's loop, all it can do: end with no call made, end by (0, 0), end by a recorded fault, or
translate n bytes and go on behind them (R75, R133; log entry 20). -/
theorem xlateLoop_succ_cases (ch : Byte) (cap : Word) (fuel src len dst : Nat) (s : State) :
    let n := min (cap.toNat / 8) len
    ((memorySize ≤ src ∨ memorySize ≤ len ∨ memorySize ≤ dst) ∧ xlateLoop ch cap (fuel + 1) src len dst s = s) ∨
    ((s.avail ch.toNat = false ∨ n = 0) ∧
      xlateLoop ch cap (fuel + 1) src len dst s = s.respond [countWord 0, countWord 0]) ∨
    (¬ RangesFit src dst n ∧ ∃ f, xlateLoop ch cap (fuel + 1) src len dst s = s.raise f) ∨
    (n ≠ 0 ∧ xlateLoop ch cap (fuel + 1) src len dst s =
      xlateLoop ch cap fuel (src + n) (len - n) (dst + 32 * n) (afterTranslate ch n src dst s)) := by
  rcases hostCall_cases ch src len dst cap s with
    ⟨hb, e⟩ | ⟨a, l, d, rfl, rfl, rfl, ⟨hz, e⟩ | ⟨f, hf, e⟩ | ⟨_, hn, _, e⟩⟩
  · exact .inl ⟨hb, by rw [xlateLoop, e]⟩
  · exact .inr (.inl ⟨hz, by rw [xlateLoop, e]; rfl⟩)
  · have unfit : ¬ RangesFit a.toNat d.toNat (consumedBytes l cap) := fun h => by
      rw [translateFault_eq_none.2 h] at hf; cases hf
    exact .inr (.inr (.inl ⟨unfit, f, by rw [xlateLoop, e]⟩))
  · refine .inr (.inr (.inr ⟨hn, ?_⟩))
    rw [xlateLoop, e]
    dsimp only
    rw [if_neg hn, show 4 * (8 * consumedBytes l cap) = 32 * consumedBytes l cap by omega]
    rfl

/-- The loop writes nothing outside the entry region of the bytes that remain, on any state. -/
theorem xlateLoop_read_other (ch : Byte) (cap : Word) (fuel : Nat) {src len dst x : Nat} {s : State}
    (hx : x < dst ∨ dst + 32 * len ≤ x) : (xlateLoop ch cap fuel src len dst s).mem.read x = s.mem.read x := by
  induction fuel generalizing src len dst s with
  | zero => rfl
  | succ fuel ih =>
    rcases xlateLoop_succ_cases ch cap fuel src len dst s with ⟨_, e⟩ | ⟨_, e⟩ | ⟨_, f, e⟩ | ⟨_, e⟩ <;> rw [e]
    · rfl
    · rfl
    · have hn : min (cap.toNat / 8) len ≤ len := Nat.min_le_right _ _
      rw [ih (by omega), afterTranslate_mem, translateBytes_read_other (by omega)]

/-- Settles O58: the region left to the loop only shrinks, since its sums are unbounded and each turn writes the
entries of bytes it takes off the count. -/
theorem xlateAllWritesOnlyItsRegion : Obligations.XlateAllWritesOnlyItsRegion := by
  unfold Obligations.XlateAllWritesOnlyItsRegion
  intro ch src len dst cap s x hx
  exact xlateLoop_read_other ch cap _ hx

/-- A shorter slice of ranges that fit, from their start, fits. -/
theorem RangesFit.take {src dst n k : Nat} (h : RangesFit src dst n) (hk : k ≤ n) : RangesFit src dst k := by
  obtain ⟨hsrc, hdst, halign, hsep⟩ := h
  exact ⟨by omega, by omega, halign, by omega⟩

/-- What is left of ranges that fit, behind a slice, fits. -/
theorem RangesFit.drop {src dst n k : Nat} (h : RangesFit src dst n) (hk : k ≤ n) :
    RangesFit (src + k) (dst + 32 * k) (n - k) := by
  obtain ⟨hsrc, hdst, halign, hsep⟩ := h
  exact ⟨by omega, by omega, by omega, by omega⟩

/-- With an available channel, room for a byte in each call and ranges that fit, the loop leaves the memory of one
translation of all the bytes, and records no fault. -/
theorem xlateLoop_translates_all {ch : Byte} {cap : Word} {fuel src len dst : Nat} {s : State}
    (ha : s.avail ch.toNat = true) (hcap : 8 ≤ cap.toNat) (hlen : len < memorySize) (hfuel : len < fuel)
    (hfit : RangesFit src dst len) :
    (xlateLoop ch cap fuel src len dst s).mem = translateBytes (s.slot ch.toNat).profile len src dst s.mem ∧
      (xlateLoop ch cap fuel src len dst s).faults = s.faults := by
  induction fuel generalizing src len dst s with
  | zero => omega
  | succ fuel ih =>
    have hn : min (cap.toNat / 8) len ≤ len := Nat.min_le_right _ _
    rcases xlateLoop_succ_cases ch cap fuel src len dst s with ⟨hb, e⟩ | ⟨hz, e⟩ | ⟨unfit, _⟩ | ⟨hpos, e⟩
    · have hend : len = 0 := by
        obtain ⟨hsrc, hdst, -, -⟩ := hfit
        omega
      subst hend
      rw [e]
      exact ⟨rfl, rfl⟩
    · have hend : len = 0 := by
        rcases hz with hz | hz
        · rw [ha] at hz; cases hz
        · omega
      subst hend
      rw [e]
      exact ⟨rfl, rfl⟩
    · exact absurd (hfit.take hn) unfit
    · rw [e]
      obtain ⟨hmem, hfaults⟩ := ih (s := afterTranslate ch (min (cap.toNat / 8) len) src dst s) ha
        (by omega) (by omega) (hfit.drop hn)
      refine ⟨?_, hfaults⟩
      rw [hmem, afterTranslate_slot, afterTranslate_mem, ← translateBytes_add, Nat.add_sub_cancel' hn]

/-- Settles O42: the calls together do what one TRANSLATE of the whole buffer does to memory. -/
theorem xlateAllEncodesTheBuffer : Obligations.XlateAllEncodesTheBuffer := by
  unfold Obligations.XlateAllEncodesTheBuffer
  intro ch src len dst cap s hinv hch hbound hcap hfit
  obtain ⟨hwf, -, -⟩ := hinv
  obtain ⟨hmem, hfaults⟩ := xlateLoop_translates_all (State.avail_iff.2 ⟨hch, hbound⟩) hcap len.isLt
    (Nat.lt_succ_self len.toNat) hfit
  obtain ⟨-, hdst, -, hsep⟩ := hfit
  dsimp only [runXlateAll]
  rw [hmem]
  exact ⟨translateBytes_readWords hwf hdst hsep, fun x hx => translateBytes_read_other hx, hfaults⟩

end Sys2Proof.Machine
end

/-! # Proofs of the state family: reset, the invariant, the records, what TRANSLATE depends on, stale profiles -/

section
/-! ## The state after reset (10_state.md R31, 70_reset_and_hazards.md R190) -/

namespace Sys2Proof.Machine

@[simp] theorem State.resetWith_slot (c : Config) (k : Nat) :
    (State.resetWith c).slot k = { bound := false, profile := resetProfile } := by
  simp [State.slot, State.resetWith]

@[simp] theorem State.resetWith_tracker (c : Config) (k : Nat) : (State.resetWith c).tracker k = .idle := by
  simp [State.tracker, State.resetWith]

@[simp] theorem State.resetWith_avail (c : Config) (k : Nat) : (State.resetWith c).avail k = false := by
  simp [State.avail]

theorem State.resetWith_inv (c : Config) : (State.resetWith c).Inv :=
  ⟨rfl, List.length_replicate, List.length_replicate⟩

/-- Settles O50: the fresh lists have NUM_CHANNELS members and the empty memory is canonical. -/
theorem resetMeetsTheInvariant : Obligations.ResetMeetsTheInvariant := by
  unfold Obligations.ResetMeetsTheInvariant
  exact fun c => ⟨State.resetWith_inv c, State.resetWith_inv Config.reference⟩

/-- Settles O51: every slot of the reset state is unbound and every tracker Idle, in range or not. -/
theorem resetStateOfTheBlock : Obligations.ResetStateOfTheBlock := by
  unfold Obligations.ResetStateOfTheBlock
  intro c
  obtain ⟨-, hctx, htx⟩ := State.resetWith_inv c
  exact ⟨fun ch _ => by simp, hctx, htx, rfl, rfl, rfl⟩

/-- TRANSLATE with no context available (R136). -/
theorem execTranslate_of_unavailable {ch : Byte} {s : State} (h : s.avail ch.toNat = false)
    (src len dst cap : Word) :
    execTranslate ch src len dst cap s = .next (s.respond [countWord 0, countWord 0]) := if_pos h

/-- Settles O52: RESOLVE looks at the parameter set only, and no channel has a context yet. -/
theorem commandsRunRightAfterReset : Obligations.CommandsRunRightAfterReset := by
  unfold Obligations.CommandsRunRightAfterReset
  intro c ch pid man m src len dst cap
  refine ⟨⟨_, _, _, _, rfl, rfl, ?_⟩, execTranslate_of_unavailable (State.resetWith_avail c _) src len dst cap⟩
  exact profOfWords_profWords (resolveProfile c pid man m)

/-- Settles O53, by the two cases of a power-on reset. -/
theorem powerOnResetStep : Obligations.PowerOnResetStep := by
  unfold Obligations.PowerOnResetStep
  intro s a ps hport
  have hstep : step s = powerOnReset (s.setPort ps) := step_cons hport
  have hidle : (s.setPort ps).anyActive = false ↔ ∀ c, s.tracker c = .idle := State.anyActive_eq_false
  rcases powerOnReset_cases (s.setPort ps) with ⟨hactive, e⟩ | ⟨hnone, e⟩ <;> rw [hstep, e]
  · have hbusy : ¬ ∀ c, s.tracker c = .idle := fun h => by rw [hidle.2 h] at hactive; cases hactive
    exact ⟨fun h => absurd h hbusy, fun _ => rfl⟩
  · exact ⟨fun _ => rfl, fun ⟨c, hc⟩ => absurd (hidle.1 hnone c) hc⟩

end Sys2Proof.Machine
end

section
/-! ## TX_BEGIN and TX_END (60_exceptions.md R170) -/

namespace Sys2Proof.Machine

/-- Writing a tracker's own value changes nothing. -/
theorem State.setTracker_self (s : State) (c : Nat) : s.setTracker c (s.tracker c) = s := by
  have : s.tx.set c (s.tracker c) = s.tx := by
    by_cases h : c < s.tx.length
    · simp [State.tracker, h]
    · exact List.set_eq_of_length_le (by omega)
  rw [State.setTracker, this]

/-- A tracker made Idle is Idle, as is that of a channel number with no tracker. -/
theorem State.setTracker_idle_tracker (s : State) (c : Nat) : (s.setTracker c .idle).tracker c = .idle := by
  by_cases h : c < s.tx.length
  · exact State.setTracker_tracker_same _ h
  · simp [State.tracker, Nat.le_of_not_lt h]

/-- Settles O47, by the three cases of TX_BEGIN; TX_END writes Idle, which an Idle tracker holds already. -/
theorem transmissionEvents : Obligations.TransmissionEvents := by
  unfold Obligations.TransmissionEvents
  rintro s a ch base len ps ⟨-, -, htx⟩
  refine ⟨fun hport => ?_, fun hport => ?_⟩
  · have hstep : step s = .next (txBegin ch base len (s.setPort ps)) := step_cons hport
    rw [hstep]
    rcases txBegin_cases ch base len (s.setPort ps) with ⟨hge, e⟩ | ⟨hlt, hbusy, e⟩ | ⟨hlt, hidle, e⟩ <;> rw [e] <;>
      simp only [State.setPort_numChannels, State.setPort_tracker] at *
    · exact ⟨fun _ => rfl, fun h => absurd h (by omega), fun h => absurd h (by omega)⟩
    · exact ⟨fun h => absurd h (by omega), fun _ _ => rfl, fun _ h => absurd h hbusy⟩
    · refine ⟨fun h => absurd h (by omega), fun _ h => absurd hidle h, fun _ _ => ⟨_, rfl, ?_, fun c hc => ?_, rfl⟩⟩
      · exact State.setTracker_tracker_same _ (by rw [State.setPort_tx, htx]; exact hlt)
      · exact State.setTracker_tracker_other _ hc
  · refine ⟨_, step_cons hport, State.setTracker_idle_tracker _ _, fun c hc => ?_, rfl, fun hidle => ?_⟩
    · exact State.setTracker_tracker_other _ hc
    · have := State.setTracker_self (s.setPort ps) ch
      rwa [State.setPort_tracker, hidle] at this

end Sys2Proof.Machine
end

section
/-! ## What every step keeps: the invariant, the parameter set, the records -/

namespace Sys2Proof.Machine

/-- A step that answers a next state idles, or accepts the head of the port (20_memory.md R51, R160). -/
theorem step_cases {s t : State} (h : step s = .next t) :
    (s.port = [] ∧ t = s) ∨ ∃ p ps, s.port = p :: ps ∧ runInteraction p.act (s.setPort ps) = .next t := by
  cases hport : s.port with
  | nil => rw [step_nil hport] at h; cases h; exact .inl ⟨rfl, rfl⟩
  | cons p ps => rw [step_cons hport] at h; exact .inr ⟨p, ps, rfl, h⟩

/-! ### The invariant (10_state.md R20, R21, R30) -/

theorem State.Inv.setSlot {s : State} (h : s.Inv) (c : Nat) (v : Slot) : (s.setSlot c v).Inv := by
  simpa [State.Inv] using h

theorem State.Inv.setTracker {s : State} (h : s.Inv) (c : Nat) (x : Tx) : (s.setTracker c x).Inv := by
  simpa [State.Inv] using h

theorem State.Inv.setMem {s : State} (h : s.Inv) {m : Memory} (hm : m.wf = true) : (s.setMem m).Inv := ⟨hm, h.2⟩

theorem exec_inv {i : Instr} {s t : State} (hinv : s.Inv) (h : exec i s = .next t) : t.Inv := by
  rcases exec_cases h with ⟨ws, rfl⟩ | ⟨f, rfl⟩ | ⟨r, rfl⟩ | ⟨c, v, rfl, -⟩ | rfl |
    ⟨ch, src, len, dst, cap, -, -, hfit, rfl⟩
  · exact hinv
  · exact hinv
  · exact hinv
  · exact hinv.setSlot c v
  · exact hinv
  · obtain ⟨-, hdst, -, -⟩ := translateFault_eq_none.1 hfit
    exact hinv.setMem (translateBytes_wf hinv.1 hdst)

theorem runInteraction_inv {a : Interaction} {s t : State} (hinv : s.Inv) (h : runInteraction a s = .next t) :
    t.Inv := by
  rcases runInteraction_cases h with ⟨ws, i, -, -, he⟩ | ⟨r, rfl⟩ | ⟨addr, b, -, -, rfl⟩ | ⟨fs, rfl⟩ | ⟨c, x, rfl⟩ |
    ⟨-, -, rfl⟩
  · exact exec_inv hinv he
  · exact hinv
  · exact hinv.setMem (Memory.write_wf b hinv.1 addr.isLt)
  · exact hinv
  · exact hinv.setTracker c x
  · exact (State.resetWith_inv s.cfg).setMem hinv.1

/-- Settles O49: each way a step can end keeps the lengths, and writes memory below 2^32 only. -/
theorem stepKeepsTheInvariant : Obligations.StepKeepsTheInvariant := by
  unfold Obligations.StepKeepsTheInvariant
  intro s t hinv h
  rcases step_cases h with ⟨-, rfl⟩ | ⟨p, ps, -, hrun⟩
  · exact hinv
  · exact runInteraction_inv (s := s.setPort ps) hinv hrun

/-! ### The parameter set (R27, R28) -/

theorem exec_cfg {i : Instr} {s t : State} (h : exec i s = .next t) : t.cfg = s.cfg := by
  rcases exec_cases h with ⟨_, rfl⟩ | ⟨_, rfl⟩ | ⟨_, rfl⟩ | ⟨_, _, rfl, -⟩ | rfl | ⟨_, _, _, _, _, -, -, -, rfl⟩ <;> rfl

theorem runInteraction_cfg {a : Interaction} {s t : State} (h : runInteraction a s = .next t) : t.cfg = s.cfg := by
  rcases runInteraction_cases h with ⟨_, _, -, -, he⟩ | ⟨_, rfl⟩ | ⟨_, _, -, -, rfl⟩ | ⟨_, rfl⟩ | ⟨_, _, rfl⟩ | ⟨-, -, rfl⟩
  · exact exec_cfg he
  all_goals rfl

/-- Settles O54: no way a step can end writes the parameter set, and a power-on reset keeps it. -/
theorem configurationIsConstant : Obligations.ConfigurationIsConstant := by
  unfold Obligations.ConfigurationIsConstant
  intro s t h
  rcases step_cases h with ⟨-, rfl⟩ | ⟨p, ps, -, hrun⟩
  · rfl
  · exact runInteraction_cfg (s := s.setPort ps) hrun

/-! ### The records (R30, 60_exceptions.md R164, R165) -/

/-- What a state records of faults and refusals starts with what an earlier one did. -/
def RecordsGrow (s t : State) : Prop := s.faults <+: t.faults ∧ s.refusals <+: t.refusals

theorem State.refused_iff {s : State} : s.refused = true ↔ s.refusals ≠ [] := by simp [State.refused]

theorem exec_records {i : Instr} {s t : State} (h : exec i s = .next t) :
    s.response <+: t.response ∧ RecordsGrow s t := by
  rcases exec_cases h with ⟨_, rfl⟩ | ⟨_, rfl⟩ | ⟨_, rfl⟩ | ⟨_, _, rfl, -⟩ | rfl | ⟨_, _, _, _, _, -, -, -, rfl⟩ <;>
    simp [RecordsGrow, translateRun]

theorem runInteraction_records {a : Interaction} {s t : State} (h : runInteraction a s = .next t) :
    s.response <+: t.response ∧ (a ≠ .powerOnReset → RecordsGrow s t) := by
  rcases runInteraction_cases h with ⟨_, _, -, -, he⟩ | ⟨_, rfl⟩ | ⟨_, _, -, -, rfl⟩ | ⟨_, rfl⟩ | ⟨_, _, rfl⟩ |
    ⟨hreset, -, rfl⟩
  · exact ⟨(exec_records he).1, fun _ => (exec_records he).2⟩
  all_goals simp [RecordsGrow, *]

theorem step_records {s t : State} (h : step s = .next t) :
    s.response <+: t.response ∧ (s.noResetNext → RecordsGrow s t) := by
  rcases step_cases h with ⟨-, rfl⟩ | ⟨p, ps, hport, hrun⟩
  · simp [RecordsGrow]
  · obtain ⟨hresponse, hgrow⟩ := runInteraction_records hrun
    exact ⟨hresponse, fun hnext => hgrow (hnext p ps hport)⟩

/-- Settles O55: a longer record holds the shorter one in front, and the mark is that the record is not empty. -/
theorem recordsAreSticky : Obligations.RecordsAreSticky := by
  unfold Obligations.RecordsAreSticky
  intro s t h
  obtain ⟨⟨ws, hws⟩, hgrow⟩ := step_records h
  refine ⟨⟨ws, hws.symm⟩, fun hnext => ?_⟩
  obtain ⟨⟨fs, hfs⟩, hrefusals⟩ := hgrow hnext
  have hmark : s.refused = true → t.refused = true := fun h =>
    State.refused_iff.2 (hrefusals.ne_nil (State.refused_iff.1 h))
  obtain ⟨rs, hrs⟩ := hrefusals
  exact ⟨⟨fs, hfs.symm⟩, ⟨rs, hrs.symm⟩, hmark⟩

end Sys2Proof.Machine
end

section
/-! ## Commands that do not reach memory (20_memory.md R40, R49) -/

namespace Sys2Proof.Machine

/-! ### BIND and UNBIND, an equation for each case (41_context.md R110, R111) -/

section
variable {ch : Byte} {s : State}

theorem execBind_of_ge (p : TimingProfile) (h : s.numChannels ≤ ch.toNat) :
    execBind ch p s = .next (s.refuse (.illegalChannel ch.toNat)) := if_pos h

theorem execBind_of_active (p : TimingProfile) (h : ch.toNat < s.numChannels) (ha : s.tracker ch.toNat ≠ .idle) :
    execBind ch p s = .next (s.raise (.hazardViolation ch.toNat none)) := by
  rw [execBind, if_neg (Nat.not_le.2 h), if_pos ha]

theorem execBind_of_idle (p : TimingProfile) (h : ch.toNat < s.numChannels) (hi : s.tracker ch.toNat = .idle) :
    execBind ch p s = .next (s.setSlot ch.toNat { bound := true, profile := p }) := by
  rw [execBind, if_neg (Nat.not_le.2 h), if_neg (not_not.2 hi)]

theorem execUnbind_of_ge (h : s.numChannels ≤ ch.toNat) : execUnbind ch s = .next s := if_pos h

theorem execUnbind_of_active (h : ch.toNat < s.numChannels) (ha : s.tracker ch.toNat ≠ .idle) :
    execUnbind ch s = .next (s.raise (.hazardViolation ch.toNat none)) := by
  rw [execUnbind, if_neg (Nat.not_le.2 h), if_pos ha]

theorem execUnbind_of_idle (h : ch.toNat < s.numChannels) (hi : s.tracker ch.toNat = .idle) :
    execUnbind ch s = .next (s.setSlot ch.toNat { s.slot ch.toNat with bound := false }) := by
  rw [execUnbind, if_neg (Nat.not_le.2 h), if_neg (not_not.2 hi)]

end

theorem exec_tx {i : Instr} {s t : State} (h : exec i s = .next t) : t.tx = s.tx := by
  rcases exec_cases h with ⟨_, rfl⟩ | ⟨_, rfl⟩ | ⟨_, rfl⟩ | ⟨_, _, rfl, -⟩ | rfl | ⟨_, _, _, _, _, -, -, -, rfl⟩ <;> rfl

theorem exec_mem_of_not_translate {i : Instr} {s t : State} (hi : isTranslate i = false) (h : exec i s = .next t) :
    t.mem = s.mem := by
  rcases exec_cases h with ⟨_, rfl⟩ | ⟨_, rfl⟩ | ⟨_, rfl⟩ | ⟨_, _, rfl, -⟩ | rfl | ⟨_, _, _, _, _, rfl, -, -, -⟩
  case inr.inr.inr.inr.inr => cases hi
  all_goals rfl

/-- A command other than TRANSLATE does the same whatever memory holds. -/
theorem exec_setMem {i : Instr} (hi : isTranslate i = false) (s : State) (m : Memory) :
    exec i (s.setMem m) = mapNext (fun t => t.setMem m) (exec i s) := by
  cases i with
  | resolve => rfl
  | bind ch p =>
    rw [exec, exec]
    rcases execBind_cases ch p s with ⟨h, e⟩ | ⟨h, ha, e⟩ | ⟨h, ha, e⟩ <;> rw [e]
    · exact execBind_of_ge p h
    · exact execBind_of_active p h ha
    · exact execBind_of_idle p h ha
  | unbind ch =>
    rw [exec, exec]
    rcases execUnbind_cases ch s with ⟨h, e⟩ | ⟨h, ha, e⟩ | ⟨h, ha, e⟩ <;> rw [e]
    · exact execUnbind_of_ge h
    · exact execUnbind_of_active h ha
    · exact execUnbind_of_idle h ha
  | readprof => rfl
  | translate => cases hi

/-- Settles O27: nothing a command can do writes a tracker, and only TRANSLATE looks at memory or writes it. -/
theorem onlyTranslateReachesMemory : Obligations.OnlyTranslateReachesMemory := by
  unfold Obligations.OnlyTranslateReachesMemory
  exact fun i s => ⟨fun _ => exec_tx, fun hi => ⟨fun _ => exec_mem_of_not_translate hi, exec_setMem hi s⟩⟩

end Sys2Proof.Machine
end

section
/-! ## Writes of bytes and words: repeated, and in disjoint ranges (20_memory.md R40, R42) -/

namespace Sys2Proof.Machine

/-- A read after a write of bytes, said in one equation. -/
theorem Memory.read_writeBytes_eq {m : Memory} {a : Nat} (bs : List Byte) (h : m.wf = true)
    (ha : a + bs.length ≤ memorySize) (x : Nat) :
    (m.writeBytes a bs).read x = if hx : a ≤ x ∧ x - a < bs.length then bs[x - a]'hx.2 else m.read x := by
  split
  case isTrue hx => simpa [Nat.add_sub_cancel' hx.1] using Memory.read_writeBytes bs h ha (x - a) hx.2
  case isFalse hx => exact Memory.read_writeBytes_other bs (by omega)

/-- Bytes written a second time change nothing. -/
theorem Memory.writeBytes_writeBytes_same {m : Memory} {a : Nat} (bs : List Byte) (h : m.wf = true)
    (ha : a + bs.length ≤ memorySize) : (m.writeBytes a bs).writeBytes a bs = m.writeBytes a bs := by
  have hw := Memory.writeBytes_wf bs h ha
  refine Memory.ext_read (Memory.writeBytes_wf bs hw ha) hw fun x => ?_
  rw [Memory.read_writeBytes_eq bs hw ha, Memory.read_writeBytes_eq bs h ha]
  split <;> rfl

/-- Bytes of disjoint ranges are written in either order. -/
theorem Memory.writeBytes_comm {m : Memory} {a b : Nat} (as bs : List Byte) (h : m.wf = true)
    (ha : a + as.length ≤ memorySize) (hb : b + bs.length ≤ memorySize)
    (hsep : a + as.length ≤ b ∨ b + bs.length ≤ a) :
    (m.writeBytes a as).writeBytes b bs = (m.writeBytes b bs).writeBytes a as := by
  have hwa := Memory.writeBytes_wf as h ha
  have hwb := Memory.writeBytes_wf bs h hb
  refine Memory.ext_read (Memory.writeBytes_wf bs hwa hb) (Memory.writeBytes_wf as hwb ha) fun x => ?_
  rw [Memory.read_writeBytes_eq bs hwa hb, Memory.read_writeBytes_eq as hwb ha, Memory.read_writeBytes_eq as h ha,
    Memory.read_writeBytes_eq bs h hb]
  by_cases hx : a ≤ x ∧ x - a < as.length
  · rw [dif_neg (by omega), dif_pos hx, dif_pos hx]
  · rw [dif_neg hx, dif_neg hx]

theorem Memory.writeWords_writeWords_same {m : Memory} {a : Nat} (ws : List Word) (h : m.wf = true)
    (ha : a + 4 * ws.length ≤ memorySize) : (m.writeWords a ws).writeWords a ws = m.writeWords a ws := by
  simp only [Memory.writeWords_eq]
  exact Memory.writeBytes_writeBytes_same _ h (by rw [flatMap_wordBytes_length]; exact ha)

theorem Memory.writeWords_comm {m : Memory} {a b : Nat} (vs ws : List Word) (h : m.wf = true)
    (ha : a + 4 * vs.length ≤ memorySize) (hb : b + 4 * ws.length ≤ memorySize)
    (hsep : a + 4 * vs.length ≤ b ∨ b + 4 * ws.length ≤ a) :
    (m.writeWords a vs).writeWords b ws = (m.writeWords b ws).writeWords a vs := by
  simp only [Memory.writeWords_eq]
  exact Memory.writeBytes_comm _ _ h (by rwa [flatMap_wordBytes_length]) (by rwa [flatMap_wordBytes_length])
    (by rwa [flatMap_wordBytes_length, flatMap_wordBytes_length])

theorem Memory.writeWords_append (m : Memory) (a : Nat) (vs ws : List Word) :
    m.writeWords a (vs ++ ws) = (m.writeWords a vs).writeWords (a + 4 * vs.length) ws := by
  induction vs generalizing m a with
  | nil => rfl
  | cons v vs ih =>
    rw [List.cons_append, Memory.writeWords, ih, List.length_cons, Memory.writeWords,
      show a + 4 + 4 * vs.length = a + 4 * (vs.length + 1) by omega]

end Sys2Proof.Machine
end

section
/-! ## The effect of a TRANSLATE, and what it depends on (42_translate.md R133 to R137)

A TRANSLATE reads the state through the availability and the profile of its channel and through its source bytes; with
these it settles which words it writes, responds and records. `translateEffect` is that reading, `TranslateEffect.apply`
the writing, and `execTranslate_eq_apply` ties the two to the command. -/

namespace Sys2Proof.Machine

/-- What a TRANSLATE adds to a state: entry words at dst, words of the response, faults. -/
structure TranslateEffect where
  entries  : List Word
  response : List Word
  faults   : List ModelFault

/-- A state with the effect of a TRANSLATE whose entry buffer is at dst. -/
def TranslateEffect.apply (e : TranslateEffect) (dst : Word) (s : State) : State :=
  { s with mem := s.mem.writeWords dst.toNat e.entries, response := s.response ++ e.response,
           faults := s.faults ++ e.faults }

/-- The entry words of n source bytes, read before any of them is written. -/
def sourceEntries (p : TimingProfile) (n src : Nat) (m : Memory) : List Word :=
  (m.readBytes src n).flatMap fun b => byteWords b p

/-- What a TRANSLATE adds to the state it meets, by the checks of R133. -/
def translateEffect (ch : Byte) (src len dst cap : Word) (s : State) : TranslateEffect :=
  let n := consumedBytes len cap
  if s.avail ch.toNat = false ∨ n = 0 then { entries := [], response := [countWord 0, countWord 0], faults := [] }
  else
    match translateFault src dst n with
    | some f => { entries := [], response := [], faults := [f] }
    | none =>
      { entries := sourceEntries (s.slot ch.toNat).profile n src.toNat s.mem
        response := [countWord n, countWord (8 * n)]
        faults := [] }

theorem sourceEntries_length (p : TimingProfile) (n src : Nat) (m : Memory) :
    (sourceEntries p n src m).length = 8 * n := by
  simp [sourceEntries, Memory.readBytes_length, Nat.mul_comm]

/-- Where the ranges do not overlap, the loop of R133 writes the entries of the bytes the source held at the start. -/
theorem translateBytes_eq_writeWords {p : TimingProfile} {n src dst : Nat} {m : Memory}
    (hsep : dst + 32 * n ≤ src ∨ src + n ≤ dst) :
    translateBytes p n src dst m = m.writeWords dst (sourceEntries p n src m) := by
  induction n generalizing src dst m with
  | zero => rfl
  | succ n ih =>
    have hsource : (m.writeWords dst (byteWords (m.read src) p)).readBytes (src + 1) n = m.readBytes (src + 1) n :=
      Memory.readBytes_congr fun x _ _ => Memory.read_writeWords_other _ (by rw [byteWords_length]; omega)
    rw [translateBytes, ih (by omega), sourceEntries, hsource, sourceEntries, Memory.readBytes, List.flatMap_cons,
      Memory.writeWords_append, byteWords_length]

/-- A TRANSLATE answers the state with its effect. -/
theorem execTranslate_eq_apply (ch : Byte) (src len dst cap : Word) (s : State) :
    execTranslate ch src len dst cap s = .next ((translateEffect ch src len dst cap s).apply dst s) := by
  rcases execTranslate_cases ch src len dst cap s with ⟨hzero, e⟩ | ⟨ha, hn, ⟨f, hf, e⟩ | ⟨hf, e⟩⟩ <;> rw [e]
  · simp [translateEffect, hzero, TranslateEffect.apply, Memory.writeWords, State.respond]
  · simp [translateEffect, ha, hn, hf, TranslateEffect.apply, Memory.writeWords, State.raise]
  · obtain ⟨-, -, -, hsep⟩ := translateFault_eq_none.1 hf
    simp [translateEffect, ha, hn, hf, TranslateEffect.apply, translateRun, translateBytes_eq_writeWords hsep,
      State.setMem, State.respond]

section
variable {ch : Byte} {src len dst cap : Word} {s t : State}

theorem exec_translate_of_effect {e : TranslateEffect} (h : translateEffect ch src len dst cap s = e) :
    exec (.translate ch src len dst cap) s = .next (e.apply dst s) := by
  rw [← h]; exact execTranslate_eq_apply ch src len dst cap s

/-- The effect depends on the channel's availability, its profile where it is available, and the source bytes only. -/
theorem translateEffect_congr (ha : s.avail ch.toNat = t.avail ch.toNat)
    (hp : t.avail ch.toNat = true → (s.slot ch.toNat).profile = (t.slot ch.toNat).profile)
    (hm : s.mem.readBytes src.toNat (consumedBytes len cap) = t.mem.readBytes src.toNat (consumedBytes len cap)) :
    translateEffect ch src len dst cap s = translateEffect ch src len dst cap t := by
  unfold translateEffect
  cases hav : t.avail ch.toNat with
  | false => simp [ha, hav]
  | true => simp [ha, hav, hp hav, sourceEntries, hm]

/-- The entries are none, or those of the consumed bytes, in ranges that meet no fault. -/
theorem translateEffect_entries_cases (ch : Byte) (src len dst cap : Word) (s : State) :
    (translateEffect ch src len dst cap s).entries = [] ∨
    ((translateEffect ch src len dst cap s).entries.length = 8 * consumedBytes len cap ∧
      RangesFit src.toNat dst.toNat (consumedBytes len cap)) := by
  unfold translateEffect
  dsimp only
  split
  · exact .inl rfl
  · split
    · exact .inl rfl
    · exact .inr ⟨sourceEntries_length _ _ _ _, translateFault_eq_none.1 ‹_›⟩

theorem translateEffect_entries_length_le :
    (translateEffect ch src len dst cap s).entries.length ≤ 8 * consumedBytes len cap := by
  rcases translateEffect_entries_cases ch src len dst cap s with h | ⟨h, -⟩
  · simp [h]
  · exact h.le

theorem translateEffect_entries_fit :
    dst.toNat + 4 * (translateEffect ch src len dst cap s).entries.length ≤ memorySize := by
  rcases translateEffect_entries_cases ch src len dst cap s with h | ⟨h, -, hdst, -, -⟩
  · have : dst.toNat < memorySize := dst.isLt
    simpa [h] using this.le
  · rw [h]; omega

/-- A TRANSLATE leaves its own source bytes alone. -/
theorem translateEffect_apply_source :
    ((translateEffect ch src len dst cap s).apply dst s).mem.readBytes src.toNat (consumedBytes len cap) =
      s.mem.readBytes src.toNat (consumedBytes len cap) := by
  refine Memory.readBytes_congr fun x hlo hhi => ?_
  rcases translateEffect_entries_cases ch src len dst cap s with h | ⟨h, -, -, -, hsep⟩
  · simp [TranslateEffect.apply, h, Memory.writeWords]
  · exact Memory.read_writeWords_other _ (by rw [h]; omega)

/-- A TRANSLATE whose entry buffer keeps clear of a range leaves the bytes of that range alone. -/
theorem translateEffect_apply_readBytes {a n : Nat}
    (hsep : dst.toNat + 32 * consumedBytes len cap ≤ a ∨ a + n ≤ dst.toNat) :
    ((translateEffect ch src len dst cap s).apply dst s).mem.readBytes a n = s.mem.readBytes a n := by
  have := translateEffect_entries_length_le (ch := ch) (src := src) (len := len) (dst := dst) (cap := cap) (s := s)
  exact Memory.readBytes_congr fun x _ _ => Memory.read_writeWords_other _ (by omega)

end

/-- Settles O37: the other parameter set has as many channels, so no channel's availability changes. -/
theorem translateNeverReadsTheTable : Obligations.TranslateNeverReadsTheTable := by
  unfold Obligations.TranslateNeverReadsTheTable
  intro s c ch src len dst cap hc
  have ha : ({ s with cfg := c } : State).avail ch.toNat = s.avail ch.toNat := by
    have hn : ({ s with cfg := c } : State).numChannels = s.numChannels := hc
    rw [State.avail, hn]; rfl
  have heff : translateEffect ch src len dst cap { s with cfg := c } = translateEffect ch src len dst cap s :=
    translateEffect_congr ha (fun _ => rfl) rfl
  rw [exec_translate_of_effect heff, exec_translate_of_effect rfl]
  rfl

/-- Settles O38: the source bytes are as they were, so the second TRANSLATE has the effect of the first, and writing the
same entries again changes nothing. -/
theorem translateRepeatedWritesTheSame : Obligations.TranslateRepeatedWritesTheSame := by
  unfold Obligations.TranslateRepeatedWritesTheSame
  rintro s t ch src len dst cap ⟨hwf, -, -⟩ h hfaults
  rw [exec_translate_of_effect rfl] at h
  cases h
  have heff : translateEffect ch src len dst cap ((translateEffect ch src len dst cap s).apply dst s) =
      translateEffect ch src len dst cap s :=
    translateEffect_congr rfl (fun _ => rfl) translateEffect_apply_source
  have hnone : (translateEffect ch src len dst cap s).faults = [] := by
    simpa [TranslateEffect.apply] using hfaults
  refine ⟨_, _, exec_translate_of_effect heff, ?_, ?_, rfl, rfl⟩
  · exact Memory.writeWords_writeWords_same _ hwf translateEffect_entries_fit
  · simp [TranslateEffect.apply, hnone]

/-- Settles O39: neither TRANSLATE changes what the other depends on, so each has the same effect in either order, and
entries in disjoint buffers are written in either order. -/
theorem twoTranslatesCommute : Obligations.TwoTranslatesCommute := by
  unfold Obligations.TwoTranslatesCommute
  rintro s c₁ c₂ src₁ len₁ dst₁ cap₁ src₂ len₂ dst₂ cap₂ ⟨hwf, -, -⟩ ⟨h₁₂, h₂₁, hdst⟩
  have heff₂ : translateEffect c₂ src₂ len₂ dst₂ cap₂ ((translateEffect c₁ src₁ len₁ dst₁ cap₁ s).apply dst₁ s) =
      translateEffect c₂ src₂ len₂ dst₂ cap₂ s :=
    translateEffect_congr rfl (fun _ => rfl) (translateEffect_apply_readBytes h₁₂)
  have heff₁ : translateEffect c₁ src₁ len₁ dst₁ cap₁ ((translateEffect c₂ src₂ len₂ dst₂ cap₂ s).apply dst₂ s) =
      translateEffect c₁ src₁ len₁ dst₁ cap₁ s :=
    translateEffect_congr rfl (fun _ => rfl) (translateEffect_apply_readBytes h₂₁)
  refine ⟨_, _, _, _, _, _, exec_translate_of_effect rfl, exec_translate_of_effect heff₂, exec_translate_of_effect rfl,
    exec_translate_of_effect heff₁, ?_, rfl, rfl, rfl, rfl, rfl⟩
  have hlen₁ : (translateEffect c₁ src₁ len₁ dst₁ cap₁ s).entries.length ≤ 8 * min (cap₁.toNat / 8) len₁.toNat :=
    translateEffect_entries_length_le
  have hlen₂ : (translateEffect c₂ src₂ len₂ dst₂ cap₂ s).entries.length ≤ 8 * min (cap₂.toNat / 8) len₂.toNat :=
    translateEffect_entries_length_le
  exact Memory.writeWords_comm _ _ hwf translateEffect_entries_fit translateEffect_entries_fit (by omega)

end Sys2Proof.Machine
end

section
/-! ## Stale profiles (10_state.md R23, R31)

Wiping the profiles of unbound slots before a step, or not, comes to the same once they are wiped after it. -/

namespace Sys2Proof.Machine

/-! ### Wiping a slot and a state -/

@[simp] theorem Slot.observable_bound (v : Slot) : v.observable.bound = v.bound := by
  unfold Slot.observable; split <;> rfl

theorem Slot.observable_of_bound {v : Slot} (h : v.bound = true) : v.observable = v := if_pos h

theorem Slot.observable_of_unbound {v : Slot} (h : v.bound = false) :
    v.observable = { bound := false, profile := resetProfile } := by
  simp [Slot.observable, h]

@[simp] theorem Slot.observable_observable (v : Slot) : v.observable.observable = v.observable := by
  cases h : v.bound with
  | true => simp [Slot.observable_of_bound h]
  | false => simp [Slot.observable_of_unbound h, Slot.observable_of_unbound]

section
variable (s : State)

@[simp] theorem State.observable_observable : s.observable.observable = s.observable := by
  simp [State.observable, Function.comp_def]

@[simp] theorem State.observable_cfg : s.observable.cfg = s.cfg := rfl

@[simp] theorem State.observable_slot (c : Nat) : s.observable.slot c = (s.slot c).observable := by
  cases h : s.ctx[c]? <;> simp [State.slot, State.observable, h, Slot.observable_of_unbound]

@[simp] theorem State.observable_avail (c : Nat) : s.observable.avail c = s.avail c := by
  rw [State.avail, State.observable_slot, Slot.observable_bound]; rfl

@[simp] theorem State.observable_setSlot (c : Nat) (v : Slot) :
    (s.setSlot c v).observable = s.observable.setSlot c v.observable := by
  simp [State.observable, State.setSlot, List.map_set]

@[simp] theorem State.observable_respond (ws : List Word) :
    (s.respond ws).observable = s.observable.respond ws := rfl

@[simp] theorem State.observable_raise (f : ModelFault) : (s.raise f).observable = s.observable.raise f := rfl

@[simp] theorem State.observable_refuse (r : CommandRefusal) :
    (s.refuse r).observable = s.observable.refuse r := rfl

@[simp] theorem TranslateEffect.observable_apply (e : TranslateEffect) (dst : Word) :
    (e.apply dst s).observable = e.apply dst s.observable := rfl

@[simp] theorem State.observable_setMem (m : Memory) : (s.setMem m).observable = s.observable.setMem m := rfl

@[simp] theorem State.observable_setTracker (c : Nat) (x : Tx) :
    (s.setTracker c x).observable = s.observable.setTracker c x := rfl

@[simp] theorem State.observable_setPort (ps : List PortItem) :
    (s.setPort ps).observable = s.observable.setPort ps := rfl

end

@[simp] theorem mapNext_next (f : State → State) (s : State) : mapNext f (.next s) = .next (f s) := rfl

/-! ### Commands -/

/-- READPROF shows the profile of a bound slot only (R112). -/
theorem readprofWords_observable (s : State) (c : Nat) : readprofWords s.observable c = readprofWords s c := by
  unfold readprofWords
  rw [State.observable_avail]
  split
  · rw [State.observable_slot, Slot.observable_of_bound (State.avail_iff.1 ‹_›).2]
  · rfl

/-- TRANSLATE looks at the profile of an available channel only (R136). -/
theorem translateEffect_observable (ch : Byte) (src len dst cap : Word) (s : State) :
    translateEffect ch src len dst cap s.observable = translateEffect ch src len dst cap s :=
  translateEffect_congr (State.observable_avail s _)
    (fun ha => by rw [State.observable_slot, Slot.observable_of_bound (State.avail_iff.1 ha).2]) rfl

theorem exec_observable (i : Instr) (s : State) :
    mapNext State.observable (exec i s.observable) = mapNext State.observable (exec i s) := by
  cases i with
  | resolve => simp [exec, execResolve]
  | bind ch p =>
    rw [exec, exec]
    rcases execBind_cases ch p s with ⟨h, e⟩ | ⟨h, ha, e⟩ | ⟨h, ha, e⟩ <;> rw [e]
    · rw [execBind_of_ge (s := s.observable) p h]; simp
    · rw [execBind_of_active (s := s.observable) p h ha]; simp
    · rw [execBind_of_idle (s := s.observable) p h ha]; simp
  | unbind ch =>
    rw [exec, exec]
    rcases execUnbind_cases ch s with ⟨h, e⟩ | ⟨h, ha, e⟩ | ⟨h, ha, e⟩ <;> rw [e]
    · rw [execUnbind_of_ge (s := s.observable) h]; simp
    · rw [execUnbind_of_active (s := s.observable) h ha]; simp
    · rw [execUnbind_of_idle (s := s.observable) h ha]; simp [Slot.observable_of_unbound]
  | readprof ch => simp [exec, execReadprof, readprofWords_observable]
  | translate ch src len dst cap =>
    rw [exec_translate_of_effect (translateEffect_observable ..), exec_translate_of_effect rfl]
    simp

/-! ### Interactions and steps -/

theorem hostWrite_of_free {addr : Word} {s : State} (b : Byte) (h : s.coveringChannels addr = []) :
    hostWrite addr b s = s.setMem (s.mem.write addr.toNat b) :=
  ((hostWrite_cases addr b s).resolve_right fun hc => hc.1 h).2

theorem hostWrite_of_covered {addr : Word} {s : State} (b : Byte) (h : s.coveringChannels addr ≠ []) :
    hostWrite addr b s =
      { s with faults := s.faults ++ (s.coveringChannels addr).map fun c => .hazardViolation c (some addr) } :=
  ((hostWrite_cases addr b s).resolve_left fun hc => h hc.1).2

theorem hostWrite_observable (addr : Word) (b : Byte) (s : State) :
    hostWrite addr b s.observable = (hostWrite addr b s).observable := by
  by_cases h : s.coveringChannels addr = []
  · rw [hostWrite_of_free b h]; exact hostWrite_of_free (s := s.observable) b h
  · rw [hostWrite_of_covered b h]; exact hostWrite_of_covered (s := s.observable) b h

theorem txBegin_observable (ch : Nat) (base len : Word) (s : State) :
    txBegin ch base len s.observable = (txBegin ch base len s).observable := by
  simp only [txBegin, apply_ite State.observable]
  rfl

/-- No host event reads a slot, and a power-on reset forgets them all. -/
theorem runInteraction_observable (a : Interaction) (s : State) :
    mapNext State.observable (runInteraction a s.observable) = mapNext State.observable (runInteraction a s) := by
  cases a with
  | command ws =>
    rw [runInteraction, runInteraction]
    cases hd : decode ws with
    | ok i => rw [runFrame_ok hd, runFrame_ok hd, exec_observable]
    | error e =>
      cases e with
      | illegalCommand h => rw [runFrame_illegal hd, runFrame_illegal hd]; simp
      | notWhole => rw [runFrame_notWhole hd, runFrame_notWhole hd]
  | hostWrite addr b => simp [runInteraction, hostWrite_observable]
  | txBegin ch base len => simp [runInteraction, txBegin_observable]
  | txEnd ch => simp [runInteraction, txEnd]
  | powerOnReset => rfl

theorem step_observable (s : State) :
    mapNext State.observable (step s.observable) = mapNext State.observable (step s) := by
  cases hport : s.port with
  | nil => rw [step_nil (s := s.observable) hport, step_nil hport]; simp
  | cons p ps =>
    rw [step_cons (s := s.observable) hport, step_cons hport, ← State.observable_setPort, runInteraction_observable]

/-- Settles O57: both steps are told from the step of the one wiped state. -/
theorem staleProfilesAreUnobservable : Obligations.StaleProfilesAreUnobservable := by
  unfold Obligations.StaleProfilesAreUnobservable
  intro s t h
  calc mapNext State.observable (step s)
      = mapNext State.observable (step s.observable) := (step_observable s).symm
    _ = mapNext State.observable (step t.observable) := by rw [h]
    _ = mapNext State.observable (step t) := step_observable t

end Sys2Proof.Machine
end

/-! # Proofs of the memory family: the order of acceptance, entry writes, what TRANSLATE writes and how it faults -/

section
/-! ## The order of acceptance (20_memory.md R51, 60_exceptions.md R160) -/

namespace Sys2Proof.Machine

/-- Settles O7: the step accepts the frame at the head of the port, and a frame runs what it decodes to. -/
theorem stepRunsDecodedCommand : Obligations.StepRunsDecodedCommand := by
  unfold Obligations.StepRunsDecodedCommand
  intro s a ws ps i hport hdecode
  calc step s
      = runFrame ws (s.setPort ps) := step_cons hport
    _ = exec i (s.setPort ps) := runFrame_ok hdecode _

section
variable {s t : State} {p : PortItem} {ps : List PortItem}

/-- What an agent has issued is read off the port alone. -/
theorem State.issued_congr (h : s.port = t.port) (a : Agent) : s.issued a = t.issued a := by
  rw [State.issued, h, State.issued]

/-- The head of the port is the first interaction its agent issued. -/
theorem State.issued_of_port_cons_same (h : s.port = p :: ps) :
    s.issued p.agent = p.act :: (s.setPort ps).issued p.agent := by
  simp [State.issued, h]

/-- The head of the port is in no other agent's order of issue. -/
theorem State.issued_of_port_cons_other (h : s.port = p :: ps) {b : Agent} (hb : b ≠ p.agent) :
    s.issued b = (s.setPort ps).issued b := by
  simp [State.issued, h, hb.symm]

/-- A step takes the head off the port and leaves the rest as it is. -/
theorem step_port (h : s.port = p :: ps) (hstep : step s = .next t) : t.port = ps := by
  rw [step_cons h] at hstep
  exact runInteraction_port hstep

end

/-- Settles O8: what is pending after a step is the port without its head, so only the head's agent has one interaction
fewer. -/
theorem stepAcceptsInIssueOrder : Obligations.StepAcceptsInIssueOrder := by
  unfold Obligations.StepAcceptsInIssueOrder
  refine fun s => ⟨step_nil, fun p ps t hport hstep => ?_⟩
  have hrest (a : Agent) : t.issued a = (s.setPort ps).issued a := State.issued_congr (step_port hport hstep) a
  refine ⟨?_, fun b hb => ?_⟩
  · rw [hrest, State.issued_of_port_cons_same hport]
  · rw [hrest, State.issued_of_port_cons_other hport hb]

end Sys2Proof.Machine
end

section
/-! ## Entry writes (20_memory.md R42, R44) -/

namespace Sys2Proof.Machine

/-- Byte k from the address of a word write is byte k of the word in memory order. -/
theorem Memory.read_writeWord {m : Memory} {a : Nat} (w : Word) (h : m.wf = true) (ha : a + 4 ≤ memorySize) (k : Nat)
    (hk : k < 4) : (m.writeWord a w).read (a + k) = (wordBytes w)[k]'hk :=
  Memory.read_writeBytes (wordBytes w) h ha k hk

/-- Settles O30, from the laws of a write of bytes: a word is four of them, in memory order. -/
theorem entryWritesAreLittleEndian : Obligations.EntryWritesAreLittleEndian := by
  unfold Obligations.EntryWritesAreLittleEndian
  intro m a w hwf ha
  have hbyte := Memory.read_writeWord w hwf ha
  exact ⟨Memory.writeBytes_wf (wordBytes w) hwf ha,
    hbyte 0 (by decide), hbyte 1 (by decide), hbyte 2 (by decide), hbyte 3 (by decide),
    Memory.readWord_writeWord w hwf ha, fun x hx => Memory.read_writeBytes_other (wordBytes w) hx⟩

end Sys2Proof.Machine
end

section
/-! ## TRANSLATE on an available channel with a byte to consume (42_translate.md R133, R134; 60_exceptions.md R166) -/

namespace Sys2Proof.Machine

/-! ### The fault by the ranges, in the order of the checks (20_memory.md R45, R46, R47) -/

section
variable {src dst : Word} {n : Nat}

theorem translateFault_of_passes (h : memorySize < src.toNat + n ∨ memorySize < dst.toNat + 32 * n) :
    translateFault src dst n = some (.addressRange src dst) :=
  if_pos (by simpa [rangePasses] using h)

/-- Ranges that end inside host memory are checked for the alignment, then for an overlap. -/
theorem translateFault_of_inside (hsrc : src.toNat + n ≤ memorySize) (hdst : dst.toNat + 32 * n ≤ memorySize) :
    translateFault src dst n =
      if dstMisaligned dst then some (.misaligned dst)
      else if rangesOverlap src dst n then some (.overlap src dst) else none :=
  if_neg (by simp [rangePasses, hsrc, hdst])

theorem translateFault_of_misaligned (hsrc : src.toNat + n ≤ memorySize) (hdst : dst.toNat + 32 * n ≤ memorySize)
    (h : dst.toNat % 4 ≠ 0) : translateFault src dst n = some (.misaligned dst) := by
  rw [translateFault_of_inside hsrc hdst, if_pos (by simpa [dstMisaligned] using h)]

theorem translateFault_of_overlap (hsrc : src.toNat + n ≤ memorySize) (hdst : dst.toNat + 32 * n ≤ memorySize)
    (halign : dst.toNat % 4 = 0) (hlo : src.toNat < dst.toNat + 32 * n) (hhi : dst.toNat < src.toNat + n) :
    translateFault src dst n = some (.overlap src dst) := by
  rw [translateFault_of_inside hsrc hdst, if_neg (by simp [dstMisaligned, halign]),
    if_pos (by simp [rangesOverlap, hlo, hhi])]

end

/-! ### The command by its fault -/

section
variable {ch : Byte} {src len dst cap : Word} {s : State}

theorem execTranslate_of_fault {f : ModelFault} (ha : s.avail ch.toNat = true) (hn : consumedBytes len cap ≠ 0)
    (hf : translateFault src dst (consumedBytes len cap) = some f) :
    execTranslate ch src len dst cap s = .next (s.raise f) := by
  rw [execTranslate, if_neg (by simp [ha]), if_neg hn, hf]

theorem execTranslate_of_fit (ha : s.avail ch.toNat = true) (hn : consumedBytes len cap ≠ 0)
    (hfit : RangesFit src.toNat dst.toNat (consumedBytes len cap)) :
    execTranslate ch src len dst cap s =
      .next (translateRun (s.slot ch.toNat).profile src dst (consumedBytes len cap) s) := by
  rw [execTranslate, if_neg (by simp [ha]), if_neg hn, translateFault_eq_none.2 hfit]

end

/-- Settles O33: the command is the loop over its bytes, whose laws say what it writes and what it leaves alone. -/
theorem translateWritesTheEntries : Obligations.TranslateWritesTheEntries := by
  unfold Obligations.TranslateWritesTheEntries
  rintro s ch src len dst cap n ⟨hwf, -, -⟩ hch hbound hn hpos hfit
  obtain rfl : n = consumedBytes len cap := hn
  have hrun := execTranslate_of_fit (State.avail_iff.2 ⟨hch, hbound⟩) (by omega) hfit
  obtain ⟨-, hdst, -, hsep⟩ := hfit
  exact ⟨_, hrun, rfl, translateBytes_readWord hwf hdst hsep, fun x hx => translateBytes_read_other hx,
    fun i hi => translateBytes_read_other (by omega), rfl⟩

/-- Settles O34: in each clause the checks before the one that fails pass, so that one gives the fault recorded. -/
theorem translateFaultsInOrder : Obligations.TranslateFaultsInOrder := by
  unfold Obligations.TranslateFaultsInOrder
  intro s ch src len dst cap n hch hbound hn hpos
  obtain rfl : n = consumedBytes len cap := hn
  have hraise {f : ModelFault} (hf : translateFault src dst (consumedBytes len cap) = some f) :
      exec (.translate ch src len dst cap) s = .next (s.raise f) :=
    execTranslate_of_fault (State.avail_iff.2 ⟨hch, hbound⟩) (by omega) hf
  exact ⟨fun h => hraise (translateFault_of_passes h),
    fun hsrc hdst h => hraise (translateFault_of_misaligned hsrc hdst h),
    fun hsrc hdst halign hlo hhi => hraise (translateFault_of_overlap hsrc hdst halign hlo hhi)⟩

end Sys2Proof.Machine
end

/-! # Proofs of the encoding family: the decoder and its encoder, the opcode table, refused frames, the words of responses
and entries -/

section
/-! ## Legal headers and the opcode table (30_encoding.md R61, R68, R69) -/

namespace Sys2Proof

/-! ### The header test by opcode -/

section
variable {h : Word} {o : Opcode}

theorem opcodeOf_eq_some_iff {b : Byte} : opcodeOf b = some o ↔ b = opcodeByte o :=
  ⟨opcodeOf_eq_some, fun e => e ▸ opcodeOf_opcodeByte o⟩

theorem opcodeByte_injective : Function.Injective opcodeByte := fun a b e => by
  rw [← Option.some_inj, ← opcodeOf_opcodeByte a, e, opcodeOf_opcodeByte b]

theorem hdrLegal_resolve_iff : hdrLegal .resolve h = true ↔ hdrRsv h = 0#7 ∧ hdrCh h = 0#8 := by
  simp [hdrLegal]

/-- The header test of the four commands that name a channel. -/
theorem hdrLegal_iff_of_ne_resolve (ho : o ≠ .resolve) :
    hdrLegal o h = true ↔ hdrRsv h = 0#7 ∧ h.extractLsb' 16 9 = 0#9 := by
  cases o with
  | resolve => exact absurd rfl ho
  | bind | unbind | readprof | translate => simp [hdrLegal]

theorem hdrRsv_of_legal (hl : hdrLegal o h = true) : hdrRsv h = 0#7 := by
  simp only [hdrLegal, Bool.and_eq_true, beq_iff_eq] at hl
  exact hl.1

/-- The header the encoder writes for an opcode with the fields of a header word: its must-be-0 fields cleared. -/
def headerOf (o : Opcode) (h : Word) : Word :=
  match o with
  | .resolve => hdrWord (opcodeByte .resolve) 0#8 (hdrPid h) (hdrMan h)
  | o => hdrWord (opcodeByte o) (hdrCh h) 0#8 false

theorem headerOf_of_ne_resolve (ho : o ≠ .resolve) : headerOf o h = hdrWord (opcodeByte o) (hdrCh h) 0#8 false := by
  cases o with
  | resolve => exact absurd rfl ho
  | bind | unbind | readprof | translate => rfl

/-- A legal header is the one the encoder writes for its fields. -/
theorem headerOf_of_legal (ho : opcodeOf (hdrOpc h) = some o) (hl : hdrLegal o h = true) : headerOf o h = h := by
  have hopc : hdrOpc h = opcodeByte o := opcodeOf_eq_some ho
  by_cases hne : o = .resolve
  · subst hne
    obtain ⟨hrsv, hch⟩ := hdrLegal_resolve_iff.1 hl
    rw [headerOf, ← hopc, ← hch, hdrWord_fields hrsv]
  · obtain ⟨hrsv, hunused⟩ := (hdrLegal_iff_of_ne_resolve hne).1 hl
    obtain ⟨hpid, hman⟩ := unused_fields hunused
    rw [headerOf_of_ne_resolve hne, ← hopc, ← hpid, ← hman, hdrWord_fields hrsv]

end

/-! ### The rows of the opcode table -/

/-- The row of the opcode table that an opcode has. -/
def opcodeRow : Opcode → OpcodeRow
  | .resolve => { mnemonic := "RESOLVE", value := 0x00000001#32, mask := 0xFE00FFFF#32, words := 4 }
  | .bind => { mnemonic := "BIND", value := 0x00000002#32, mask := 0xFFFF00FF#32, words := 4 }
  | .unbind => { mnemonic := "UNBIND", value := 0x00000003#32, mask := 0xFFFF00FF#32, words := 1 }
  | .readprof => { mnemonic := "READPROF", value := 0x00000004#32, mask := 0xFFFF00FF#32, words := 1 }
  | .translate => { mnemonic := "TRANSLATE", value := 0x00000005#32, mask := 0xFFFF00FF#32, words := 5 }

/-- The table holds one row for each opcode and no other. -/
theorem opcodeTable_eq_map :
    opcodeTable = [Opcode.resolve, .bind, .unbind, .readprof, .translate].map opcodeRow := rfl

theorem mem_opcodeTable_iff {r : OpcodeRow} : r ∈ opcodeTable ↔ ∃ o, opcodeRow o = r := by
  rw [opcodeTable_eq_map, List.mem_map]
  exact exists_congr fun o => and_iff_right (by cases o <;> decide)

/-- The mask of RESOLVE's row keeps OPC, CH and RSV. -/
theorem and_resolveMask_eq_iff {h v : Word} : h &&& 0xFE00FFFF#32 = v ↔
    hdrOpc h = v.extractLsb' 0 8 ∧ hdrCh h = v.extractLsb' 8 8 ∧ 0#9 = v.extractLsb' 16 9 ∧
      hdrRsv h = v.extractLsb' 25 7 := by
  have keep8 (x : BitVec 8) : x &&& 255#8 = x := BitVec.and_allOnes
  have keep7 (x : BitVec 7) : x &&& 127#7 = x := BitVec.and_allOnes
  simp [header_eq_iff (h &&& _), BitVec.extractLsb'_and, hdrOpc, hdrCh, hdrRsv, keep8, keep7]

/-- The mask of the other rows keeps OPC, [24:16] and RSV. -/
theorem and_channelMask_eq_iff {h v : Word} : h &&& 0xFFFF00FF#32 = v ↔
    hdrOpc h = v.extractLsb' 0 8 ∧ 0#8 = v.extractLsb' 8 8 ∧ h.extractLsb' 16 9 = v.extractLsb' 16 9 ∧
      hdrRsv h = v.extractLsb' 25 7 := by
  have keep8 (x : BitVec 8) : x &&& 255#8 = x := BitVec.and_allOnes
  have keep9 (x : BitVec 9) : x &&& 511#9 = x := BitVec.and_allOnes
  have keep7 (x : BitVec 7) : x &&& 127#7 = x := BitVec.and_allOnes
  simp [header_eq_iff (h &&& _), BitVec.extractLsb'_and, hdrOpc, hdrRsv, keep8, keep9, keep7]

/-- A header word is of an opcode's row exactly when it has that opcode and passes its test. -/
theorem opcodeRow_matches_iff {o : Opcode} {h : Word} :
    (opcodeRow o).matches h = true ↔ opcodeOf (hdrOpc h) = some o ∧ hdrLegal o h = true := by
  rw [OpcodeRow.matches, beq_iff_eq, opcodeOf_eq_some_iff]
  cases o with
  | resolve => simp [opcodeRow, and_resolveMask_eq_iff, hdrLegal_resolve_iff, opcodeByte, and_comm]
  | bind | unbind | readprof | translate =>
    simp [opcodeRow, and_channelMask_eq_iff, hdrLegal_iff_of_ne_resolve, opcodeByte, and_comm]

/-- Settles O4: the rows are those of the five opcodes, and each matches the legal headers of its own. -/
theorem legalHeadersAreTableRows : Obligations.LegalHeadersAreTableRows := by
  unfold Obligations.LegalHeadersAreTableRows
  intro h
  simp only [mem_opcodeTable_iff, exists_exists_eq_and, opcodeRow_matches_iff]

end Sys2Proof
end

section
/-! ## The decoder on the frames of the encoder, and back (30_encoding.md R64, R65, R69) -/

namespace Sys2Proof

/-! ### Decoding by the outcome of the header test -/

section
variable {h : Word} {o : Opcode}

theorem decode_of_legal (ho : opcodeOf (hdrOpc h) = some o) (hl : hdrLegal o h = true) (ops : List Word) :
    decode (h :: ops) = decodeOperands o h ops := by
  simp only [decode, ho, if_pos hl]

/-- A frame with a header is refused by its header, or it is what its operand words make it. -/
theorem decode_cons_cases (h : Word) (ops : List Word) :
    ((∀ o, opcodeOf (hdrOpc h) = some o → hdrLegal o h = false) ∧
      decode (h :: ops) = .error (.illegalCommand h)) ∨
    ∃ o, opcodeOf (hdrOpc h) = some o ∧ hdrLegal o h = true ∧ decode (h :: ops) = decodeOperands o h ops := by
  cases ho : opcodeOf (hdrOpc h) with
  | none => exact .inl ⟨by simp, by simp only [decode, ho]⟩
  | some o =>
    cases hl : hdrLegal o h with
    | true => exact .inr ⟨o, rfl, hl, decode_of_legal ho hl ops⟩
    | false => exact .inl ⟨by simp [hl], by simp [decode, ho, hl]⟩

/-- The header the encoder writes for RESOLVE is legal. -/
theorem decode_resolveHeader (pid : Byte) (man : Bool) (ops : List Word) :
    decode (hdrWord (opcodeByte .resolve) 0#8 pid man :: ops) =
      decodeOperands .resolve (hdrWord (opcodeByte .resolve) 0#8 pid man) ops :=
  decode_of_legal (by simp) (hdrLegal_resolve_iff.2 (by simp)) ops

/-- The header the encoder writes for a command that names a channel is legal. -/
theorem decode_channelHeader (hne : o ≠ .resolve) (ch : Byte) (ops : List Word) :
    decode (hdrWord (opcodeByte o) ch 0#8 false :: ops) =
      decodeOperands o (hdrWord (opcodeByte o) ch 0#8 false) ops :=
  decode_of_legal (by simp) ((hdrLegal_iff_of_ne_resolve hne).2 (by simp)) ops

end

/-- Settles O1: the header of each command passes its own test, and its fields and PROF words unpack to what was
packed. -/
theorem decodeOfEncode : Obligations.DecodeOfEncode := by
  unfold Obligations.DecodeOfEncode
  intro i
  cases i with
  | resolve pid man m => exact (decode_resolveHeader pid man (profWords m)).trans (by simp [decodeOperands, profWords])
  | bind ch p =>
    exact (decode_channelHeader (o := .bind) (by decide) ch (profWords p)).trans (by simp [decodeOperands, profWords])
  | unbind ch => exact (decode_channelHeader (o := .unbind) (by decide) ch []).trans (by simp [decodeOperands])
  | readprof ch => exact (decode_channelHeader (o := .readprof) (by decide) ch []).trans (by simp [decodeOperands])
  | translate ch src len dst cap =>
    exact (decode_channelHeader (o := .translate) (by decide) ch [src, len, dst, cap]).trans (by simp [decodeOperands])

/-! ### What the operand words make of a legal header -/

section
variable {o : Opcode} {ops : List Word}

theorem decodeOperands_of_length_ne (h : Word) (hn : ops.length ≠ operandWords o) :
    decodeOperands o h ops = .error .notWhole := by
  cases o with
  | resolve | bind | unbind | readprof | translate =>
    simp only [decodeOperands]
    split
    · exact absurd rfl hn
    · rfl

theorem decodeOperands_of_illegal_prof (ho : o = .resolve ∨ o = .bind) (h : Word) {p0 p1 p2 : Word}
    (hp : profLegal p0 p1 p2 = false) : decodeOperands o h [p0, p1, p2] = .error (.illegalCommand h) := by
  rcases ho with rfl | rfl <;> simp [decodeOperands, hp]

/-- As many operand words as the opcode takes are refused by their PROF bits, or they are a command the encoder gives them
back for. -/
theorem decodeOperands_of_length_eq (h : Word) (hn : ops.length = operandWords o) :
    decodeOperands o h ops = .error (.illegalCommand h) ∨
      ∃ i, decodeOperands o h ops = .ok i ∧ encode i = headerOf o h :: ops := by
  cases o with
  | resolve | bind =>
    obtain ⟨p0, p1, p2, rfl⟩ := List.length_eq_three.1 hn
    cases hp : profLegal p0 p1 p2 with
    | false => exact .inl (decodeOperands_of_illegal_prof (by simp) h hp)
    | true => exact .inr ⟨_, if_pos hp, congrArg (_ :: ·) (profWords_profOfWords hp)⟩
  | unbind | readprof =>
    obtain rfl := List.length_eq_zero_iff.1 hn
    exact .inr ⟨_, rfl, rfl⟩
  | translate =>
    obtain ⟨src, len, dst, cap, rfl⟩ := List.length_eq_four.1 hn
    exact .inr ⟨_, rfl, rfl⟩

end

/-- The encoder writes as many words as R65 gives the command. -/
theorem encode_length (i : Instr) : (encode i).length = wordCount i := by
  cases i with
  | resolve pid man m => exact (Laws.EncodedLength.resolve pid man m).1
  | bind ch p => exact (Laws.EncodedLength.bind ch p).1
  | unbind ch => exact (Laws.EncodedLength.unbind ch).1
  | readprof ch => exact (Laws.EncodedLength.readprof ch).1
  | translate ch src len dst cap => exact (Laws.EncodedLength.translate ch src len dst cap).1

theorem encode_of_decode {ws : List Word} {i : Instr} (hd : decode ws = .ok i) : encode i = ws := by
  cases ws with
  | nil => cases hd
  | cons h ops =>
    rcases decode_cons_cases h ops with ⟨-, e⟩ | ⟨o, ho, hl, e⟩ <;> rw [e] at hd
    · cases hd
    · by_cases hn : ops.length = operandWords o
      · rcases decodeOperands_of_length_eq h hn with e | ⟨j, e, henc⟩ <;> rw [e] at hd <;> cases hd
        rw [henc, headerOf_of_legal ho hl]
      · rw [decodeOperands_of_length_ne h hn] at hd
        cases hd

/-- Settles O2: a frame that decodes passed every test, so its must-be-0 bits are those the encoder writes. -/
theorem encodeOfDecode : Obligations.EncodeOfDecode := by
  unfold Obligations.EncodeOfDecode
  intro ws i hd
  have henc : encode i = ws := encode_of_decode hd
  exact ⟨henc, henc ▸ encode_length i⟩

/-- Settles O12: with a legal header only the number of operand words is left to make a frame no whole command. -/
theorem wholeFramesHaveTheLengthOfTheirOpcode : Obligations.WholeFramesHaveTheLengthOfTheirOpcode := by
  unfold Obligations.WholeFramesHaveTheLengthOfTheirOpcode
  refine ⟨rfl, fun o h ops ho hl => ?_⟩
  rw [decode_of_legal ho hl]
  refine ⟨fun hd hn => ?_, decodeOperands_of_length_ne h⟩
  rcases decodeOperands_of_length_eq h hn with e | ⟨i, e, -⟩ <;> rw [e] at hd <;> cases hd

/-- Settles O3, by running the decoder on the printed words. -/
theorem printedWordsDecode : Obligations.PrintedWordsDecode := by
  unfold Obligations.PrintedWordsDecode
  exact ⟨rfl, rfl, rfl, rfl, rfl, rfl, rfl, rfl⟩

end Sys2Proof
end

section
/-! ## Refused frames (30_encoding.md R70, R71; 60_exceptions.md R165) -/

namespace Sys2Proof.Machine

/-- A frame is refused when its operand words are, should its header be legal. -/
theorem decode_illegal_of_legal {h : Word} {ops : List Word}
    (hill : ∀ o, hdrOpc h = opcodeByte o → hdrLegal o h = true →
      decodeOperands o h ops = .error (.illegalCommand h)) :
    decode (h :: ops) = .error (.illegalCommand h) := by
  rcases decode_cons_cases h ops with ⟨-, e⟩ | ⟨o, ho, hl, e⟩
  · exact e
  · rw [e, hill o (opcodeOf_eq_some ho) hl]

/-- A step that accepts a refused frame takes it off the port and records the refusal. -/
theorem step_of_illegal {s : State} {a : Agent} {ws : List Word} {h : Word} {ps : List PortItem}
    (hport : s.port = { agent := a, act := .command ws } :: ps) (hd : decode ws = .error (.illegalCommand h)) :
    step s = .next ((s.setPort ps).refuse (.illegalCommand h)) :=
  (step_cons hport).trans (runFrame_illegal hd _)

/-- Settles O5: no opcode has a reserved OPC field. -/
theorem reservedOpcodeRefused : Obligations.ReservedOpcodeRefused := by
  unfold Obligations.ReservedOpcodeRefused
  intro s a h ops ps hport hreserved
  have hnone : opcodeOf (hdrOpc h) = none := opcodeOf_eq_none.2 hreserved
  refine step_of_illegal hport (decode_illegal_of_legal fun o ho _ => ?_)
  rw [ho, opcodeOf_opcodeByte] at hnone
  cases hnone

theorem profLegal_eq_false {p0 p1 p2 : Word} : profLegal p0 p1 p2 = false ↔
    p0.getLsbD 15 = true ∨ p0.getLsbD 31 = true ∨ p1.getLsbD 15 = true ∨ p1.getLsbD 31 = true ∨
      p2.extractLsb' 15 17 ≠ 0#17 := by
  simp only [profLegal, Bool.and_eq_false_iff, Bool.not_eq_false', beq_eq_false_iff_ne, or_assoc]

/-- Settles O6: each must-be-0 field of the header fails the test of the opcode it belongs to, and a PROF word's fails the
test of the three words. -/
theorem mustBeZeroBitRefused : Obligations.MustBeZeroBitRefused := by
  unfold Obligations.MustBeZeroBitRefused
  intro s a h ops ps hport hbit
  refine step_of_illegal hport (decode_illegal_of_legal fun o ho hl => ?_)
  rcases hbit with hrsv | ⟨hopc, hch⟩ | ⟨hlo, -, hunused⟩ | ⟨hopc, p0, p1, p2, rfl, hprof⟩
  · exact absurd (hdrRsv_of_legal hl) hrsv
  · obtain rfl : o = .resolve := opcodeByte_injective (ho.symm.trans hopc)
    exact absurd (hdrLegal_resolve_iff.1 hl).2 hch
  · have hne : o ≠ .resolve := by
      rintro rfl
      change 2 ≤ (hdrOpc h).toNat at hlo
      rw [ho] at hlo
      exact absurd hlo (by decide)
    exact absurd ((hdrLegal_iff_of_ne_resolve hne).1 hl).2 hunused
  · have hop : o = .resolve ∨ o = .bind :=
      hopc.imp (fun e => opcodeByte_injective (ho.symm.trans e)) fun e => opcodeByte_injective (ho.symm.trans e)
    exact decodeOperands_of_illegal_prof hop h (profLegal_eq_false.2 hprof)

end Sys2Proof.Machine
end

section
/-! ## The words of an entry (30_encoding.md R62, R63; 42_translate.md R132) -/

namespace Sys2Proof.Machine

/-- Either entry word is the packing of its entry's durations, bit 15 set. -/
theorem entryWord_eq_entryBits (b : Bool) (p : TimingProfile) : entryWord b p =
    ((entryOf b p).dur1.setWidth 32 <<< 16) ||| (1#32 <<< 15) ||| (entryOf b p).dur0.setWidth 32 := by
  cases b <;> rfl

theorem getLsbD_entryWord (b : Bool) (p : TimingProfile) (i : Nat) : (entryWord b p).getLsbD i =
    if i < 15 then (entryOf b p).dur0.getLsbD i
    else if i = 15 then true else (entryOf b p).dur1.getLsbD (i - 16) := by
  rw [entryWord_eq_entryBits, getLsbD_entryBits]

theorem entryWord_dur0 (b : Bool) (p : TimingProfile) : (entryWord b p).extractLsb' 0 15 = (entryOf b p).dur0 := by
  apply BitVec.eq_of_getLsbD_eq
  intro i hi
  simp [getLsbD_entryWord, hi]

theorem entryWord_dur1 (b : Bool) (p : TimingProfile) : (entryWord b p).extractLsb' 16 15 = (entryOf b p).dur1 := by
  apply BitVec.eq_of_getLsbD_eq
  intro i hi
  simp [getLsbD_entryWord, hi, show ¬ 16 + i < 15 by omega, show 16 + i ≠ 15 by omega]

theorem entryWord_level0 (b : Bool) (p : TimingProfile) : (entryWord b p).getLsbD 15 = true := by
  rw [getLsbD_entryWord]; rfl

theorem entryWord_level1 (b : Bool) (p : TimingProfile) : (entryWord b p).getLsbD 31 = false := by
  rw [getLsbD_entryWord]; exact BitVec.getLsbD_of_ge _ 15 (Nat.le_refl _)

theorem entryOf_dur0 (b : Bool) (p : TimingProfile) : (entryOf b p).dur0 = if b then p.highOn else p.lowOn := by
  cases b <;> rfl

theorem entryOf_dur1 (b : Bool) (p : TimingProfile) : (entryOf b p).dur1 = if b then p.highOff else p.lowOff := by
  cases b <;> rfl

/-- Settles O28: the fields of the entry word are read off its bits. -/
theorem entryWordLayout : Obligations.EntryWordLayout := by
  unfold Obligations.EntryWordLayout
  intro b p
  exact ⟨entryWord_eq_pack b p, (entryWord_dur0 b p).trans (entryOf_dur0 b p), entryWord_level0 b p,
    (entryWord_dur1 b p).trans (entryOf_dur1 b p), entryWord_level1 b p⟩

end Sys2Proof.Machine
end

section
/-! ## The words of a response (30_encoding.md R66), and the pseudo-commands INSTALL and XLATE_ALL (R75) -/

namespace Sys2Proof.Machine

/-! ### RESOLVE (40_resolver.md R95 to R97) -/

/-- Settles O13: RESOLVE responds the words of the resolved profile, and the flag says which that is. -/
theorem resolveAnswersByFlag : Obligations.ResolveAnswersByFlag := by
  unfold Obligations.ResolveAnswersByFlag
  exact fun s pid m => ⟨rfl, rfl⟩

/-- Settles O14: the words of a profile are legal and unpack to it. -/
theorem resolveResponseCarriesProfile : Obligations.ResolveResponseCarriesProfile := by
  unfold Obligations.ResolveResponseCarriesProfile
  intro s pid man m
  exact ⟨_, _, _, _, rfl, rfl, profLegal_profWords _, profOfWords_profWords (resolveProfile s.cfg pid man m)⟩

/-! ### READPROF (41_context.md R112, R113) -/

theorem readprofWords_of_avail {s : State} {c : Nat} (h : s.avail c = true) :
    readprofWords s c = statWord true :: profWords (s.slot c).profile := if_pos h

theorem readprofWords_of_unavailable {s : State} {c : Nat} (h : ¬ s.avail c = true) :
    readprofWords s c = [statWord false, 0#32, 0#32, 0#32] := if_neg h

theorem exec_readprof {s : State} {ch : Byte} {ws : List Word} (h : readprofWords s ch.toNat = ws) :
    exec (.readprof ch) s = .next (s.respond ws) := by
  rw [← h]; rfl

/-- Settles O24: R113's availability says which of the two responses it is. -/
theorem readprofAnswersTheContext : Obligations.ReadprofAnswersTheContext := by
  unfold Obligations.ReadprofAnswersTheContext
  intro s ch
  rw [← State.avail_iff]
  exact ⟨fun h => exec_readprof (readprofWords_of_avail h), fun h => exec_readprof (readprofWords_of_unavailable h)⟩

/-- A profile just bound to a channel in range is the one READPROF shows (R110, R112). -/
theorem readprofWords_setSlot_bound {s : State} {c : Nat} (hinv : s.Inv) (hc : c < s.numChannels) (p : TimingProfile) :
    readprofWords (s.setSlot c { bound := true, profile := p }) c = statWord true :: profWords p := by
  obtain ⟨-, hctx, -⟩ := hinv
  have hslot : (s.setSlot c { bound := true, profile := p }).slot c = { bound := true, profile := p } :=
    State.setSlot_slot_same _ (hctx ▸ hc)
  have havail : (s.setSlot c { bound := true, profile := p }).avail c = true :=
    State.avail_iff.2 ⟨hc, by rw [hslot]⟩
  rw [readprofWords_of_avail havail, hslot]

/-- Settles O25: the second BIND overwrites the slot of the first, and READPROF shows words that unpack to its profile. -/
theorem bindThenReadprofReadsBack : Obligations.BindThenReadprofReadsBack := by
  unfold Obligations.BindThenReadprofReadsBack
  intro s ch p q hinv hch hidle
  have hagain : exec (.bind ch q) (s.setSlot ch.toNat { bound := true, profile := p }) =
      .next (s.setSlot ch.toNat { bound := true, profile := q }) := by
    rw [← State.setSlot_setSlot_same s ch.toNat { bound := true, profile := p } { bound := true, profile := q }]
    exact execBind_of_idle q hch hidle
  exact ⟨_, _, _, _, _, _, execBind_of_idle p hch hidle, hagain, execBind_of_idle q hch hidle,
    exec_readprof (readprofWords_setSlot_bound hinv hch q), rfl, profOfWords_profWords q⟩

/-! ### INSTALL -/

/-- INSTALL is RESOLVE's response, then BIND of the profile it carries. -/
theorem runInstall_eq (ch pid : Byte) (man : Bool) (m : TimingProfile) (s : State) :
    runInstall ch pid man m s =
      execBind ch (resolveProfile s.cfg pid man m) (s.respond (profWords (resolveProfile s.cfg pid man m))) := by
  have hresolve : exec (.resolve pid man m) s =
      .next (s.respond (profWords (resolveProfile s.cfg pid man m))) := rfl
  have hread := newResponse_append (s.respond_response (profWords (resolveProfile s.cfg pid man m)))
  simp only [runInstall, hresolve, hread]
  exact congrArg (fun p => execBind ch p _) (profOfWords_profWords (resolveProfile s.cfg pid man m))

/-- Settles O44: the response words do not concern BIND, whose case on an idle channel in range is the writing of the
slot. -/
theorem installBindsTheResolvedProfile : Obligations.InstallBindsTheResolvedProfile := by
  unfold Obligations.InstallBindsTheResolvedProfile
  rintro ch pid man m s ⟨-, hctx, -⟩ hch hidle
  exact ⟨_, (runInstall_eq ch pid man m s).trans (execBind_of_idle _ hch hidle),
    State.setSlot_slot_same _ (hctx ▸ hch), fun c hc => State.setSlot_slot_other _ hc, rfl, rfl⟩

/-! ### XLATE_ALL with too small a capacity -/

theorem consumedBytes_of_cap_lt {cap : Word} (h : cap.toNat < 8) (len : Word) : consumedBytes len cap = 0 := by
  simp [consumedBytes, Nat.div_eq_of_lt h]

/-- TRANSLATE with no byte to consume (R135). -/
theorem execTranslate_of_consumes_nothing {len cap : Word} (h : consumedBytes len cap = 0) (ch : Byte)
    (src dst : Word) (s : State) :
    execTranslate ch src len dst cap s = .next (s.respond [countWord 0, countWord 0]) := by
  rw [execTranslate, if_pos h, ite_self]

/-- Settles O43: the first call of the loop consumes nothing, which ends the loop. -/
theorem xlateAllTooSmallStopsAtOnce : Obligations.XlateAllTooSmallStopsAtOnce := by
  unfold Obligations.XlateAllTooSmallStopsAtOnce
  intro ch src len dst cap s hcap
  have hexec : exec (.translate ch src len dst cap) s = .next (s.respond [countWord 0, countWord 0]) :=
    execTranslate_of_consumes_nothing (consumedBytes_of_cap_lt hcap len) ch src dst s
  rw [runXlateAll, xlateLoop, hostCall_of_next hexec rfl]
  rfl

end Sys2Proof.Machine
end

/-! # Proofs of the resolver family: the table lookup, the tick conversion, independence of channels -/

section
/-! ## The table lookup (40_resolver.md R94) -/

namespace Sys2Proof.Machine

/-- The lookup in a table is the library's search for the first member with the key. -/
theorem findRow_eq_find? (rows : List TableRow) (pid : Nat) :
    findRow rows pid = rows.find? fun r => decide (r.key = pid) := by
  induction rows with
  | nil => rfl
  | cons r rest ih =>
    rw [findRow, List.find?_cons, ih]
    by_cases h : r.key = pid <;> simp [h]

/-- The row at place k is found when it has the key and no row before it does. -/
theorem findRow_eq_some_of_first {rows : List TableRow} {pid k : Nat} {r : TableRow} (hk : rows[k]? = some r)
    (hkey : r.key = pid) (hfirst : ∀ (j : Nat) (q : TableRow), j < k → rows[j]? = some q → q.key ≠ pid) :
    findRow rows pid = some r := by
  obtain ⟨hlt, hget⟩ := List.getElem?_eq_some_iff.1 hk
  rw [findRow_eq_find?, List.find?_eq_some_iff_getElem]
  refine ⟨decide_eq_true hkey, k, hlt, hget, fun j hj => ?_⟩
  have hne : rows[j].key ≠ pid := hfirst j _ hj (List.getElem?_eq_getElem _)
  simp [hne]

theorem findRow_eq_none_iff {rows : List TableRow} {pid : Nat} :
    findRow rows pid = none ↔ ∀ r ∈ rows, r.key ≠ pid := by
  simp [findRow_eq_find?]

theorem rowFor_of_findRow_eq_some {c : Config} {pid : Nat} {r : TableRow} (h : findRow c.params.table pid = some r) :
    rowFor c pid = r := by
  rw [rowFor, h, Option.getD_some]

/-- Without a row of that key the answer is row 0, which a built set has (R9). -/
theorem getElem?_zero_eq_rowFor {c : Config} {pid : Nat} (h : findRow c.params.table pid = none) :
    c.params.table[0]? = some (rowFor c pid) := by
  obtain ⟨r, rest, e⟩ := List.exists_cons_of_length_pos c.table_pos
  rw [rowFor, h, Option.getD_none, e, List.headD_cons, List.getElem?_cons_zero]

/-- Settles O15: the search answers the first row with the key, or nothing, and then the lookup falls back to row 0. -/
theorem rowLookupFirstMatchElseRowZero : Obligations.RowLookupFirstMatchElseRowZero := by
  unfold Obligations.RowLookupFirstMatchElseRowZero
  exact fun c pid =>
    ⟨fun k r hk hkey hfirst => rowFor_of_findRow_eq_some (findRow_eq_some_of_first hk hkey hfirst),
      fun hnone => getElem?_zero_eq_rowFor (findRow_eq_none_iff.2 hnone)⟩

end Sys2Proof.Machine
end

section
/-! ## The tick conversion (40_resolver.md R91 and section 4, Laws) -/

namespace Sys2Proof

section
variable {a b : Nat}

theorem ceilDiv_of_dvd (hb : 0 < b) (h : b ∣ a) : ceilDiv a b = a / b := by
  refine eq_of_forall_ge_iff fun m => ?_
  rw [ceilDiv_le_iff hb, Nat.div_le_iff_le_mul_of_dvd hb.ne' h]

/-- A quotient that is not exact is rounded up. -/
theorem lt_ceilDiv_mul_of_not_dvd (hb : 0 < b) (h : ¬ b ∣ a) : a < ceilDiv a b * b :=
  (le_ceilDiv_mul a hb).lt_of_ne fun e => h (e ▸ Nat.dvd_mul_left b _)

/-- A common factor of the two numbers does not change their quotient, rounded up. -/
theorem ceilDiv_mul_left {k : Nat} (hk : 0 < k) (hb : 0 < b) : ceilDiv (k * a) (k * b) = ceilDiv a b := by
  refine eq_of_forall_ge_iff fun m => ?_
  rw [ceilDiv_le_iff (Nat.mul_pos hk hb), ceilDiv_le_iff hb, Nat.mul_left_comm m k b, Nat.mul_le_mul_left_iff hk]

end

/-- A microsecond is 1000 nanoseconds. -/
theorem Params.ticksUs_eq_ticksNs {p : Params} (h : 1 ≤ p.clkDiv) (t : Nat) : p.ticksUs t = p.ticksNs (1000 * t) := by
  have hscale : p.clkDiv * 1000000000 = 1000 * (p.clkDiv * 1000000) := by omega
  rw [Params.ticksNs, hscale, Nat.mul_assoc, ceilDiv_mul_left (by decide) (by omega), Params.ticksUs]

/-- Settles O16: the conversion is a division rounded up, by a divisor that R9 keeps positive. -/
theorem tickConversionLaws : Obligations.TickConversionLaws := by
  unfold Obligations.TickConversionLaws
  intro p hwf t
  obtain ⟨-, -, hdiv, -⟩ := Params.wellFormed_iff.1 hwf
  have hpos : 0 < p.clkDiv * 1000000000 := by omega
  refine ⟨ceilDiv_of_dvd hpos, fun hnot => ⟨lt_ceilDiv_mul_of_not_dvd hpos hnot, fun m hm => ?least⟩, ?zero,
    fun u htu => ?mono, le_ceilDiv_mul _ hpos, Params.ticksUs_eq_ticksNs hdiv t⟩
  case least => exact (Params.ticksNs_le_iff hdiv).2 hm.le
  case zero => rw [Params.ticksNs, Nat.zero_mul, ceilDiv_zero hpos]
  case mono => exact ceilDiv_mono hpos (Nat.mul_le_mul_right _ htu)

end Sys2Proof
end

section
/-! ## A command and the slots of other channels (40_resolver.md R97, 60_exceptions.md R172) -/

namespace Sys2Proof.Machine

section
variable {s : State} {c : Nat} {ch : Byte} (v : Slot)

theorem execBind_setSlot_other (hne : ch.toNat ≠ c) (p : TimingProfile) :
    execBind ch p (s.setSlot c v) = mapNext (fun t => t.setSlot c v) (execBind ch p s) := by
  rcases execBind_cases ch p s with ⟨h, e⟩ | ⟨h, ha, e⟩ | ⟨h, hi, e⟩ <;> rw [e, mapNext_next]
  · exact execBind_of_ge p h
  · exact execBind_of_active p h ha
  · rw [State.setSlot_comm s _ v hne]
    exact execBind_of_idle p h hi

theorem execUnbind_setSlot_other (hne : ch.toNat ≠ c) :
    execUnbind ch (s.setSlot c v) = mapNext (fun t => t.setSlot c v) (execUnbind ch s) := by
  rcases execUnbind_cases ch s with ⟨h, e⟩ | ⟨h, ha, e⟩ | ⟨h, hi, e⟩ <;> rw [e, mapNext_next]
  · exact execUnbind_of_ge h
  · exact execUnbind_of_active h ha
  · rw [State.setSlot_comm s _ v hne, ← State.setSlot_slot_other (s := s) v hne]
    exact execUnbind_of_idle h hi

theorem readprofWords_setSlot_other {k : Nat} (hne : k ≠ c) :
    readprofWords (s.setSlot c v) k = readprofWords s k := by
  rw [readprofWords, State.avail_setSlot_other v hne, State.setSlot_slot_other v hne, readprofWords]

theorem translateEffect_setSlot_other (hne : ch.toNat ≠ c) (src len dst cap : Word) :
    translateEffect ch src len dst cap (s.setSlot c v) = translateEffect ch src len dst cap s :=
  translateEffect_congr (State.avail_setSlot_other v hne)
    (fun _ => congrArg Slot.profile (State.setSlot_slot_other v hne)) rfl

end

/-- Settles O26: each command reads the slot of its own channel only, RESOLVE none, and what it writes commutes with
the write of another slot. -/
theorem channelsAreIndependent : Obligations.ChannelsAreIndependent := by
  unfold Obligations.ChannelsAreIndependent
  intro i s c v hother
  have hne {ch : Byte} (hch : instrChannel i = some ch.toNat) : ch.toNat ≠ c := fun e => hother (e ▸ hch)
  cases i with
  | resolve => rfl
  | bind ch p => exact execBind_setSlot_other v (hne rfl) p
  | unbind ch => exact execUnbind_setSlot_other v (hne rfl)
  | readprof ch => exact exec_readprof (readprofWords_setSlot_other v (hne rfl))
  | translate ch src len dst cap =>
    rw [exec_translate_of_effect (translateEffect_setSlot_other v (hne rfl) src len dst cap),
      exec_translate_of_effect rfl]
    rfl

end Sys2Proof.Machine
end

section
/-! ## Changing the translator context (41_context.md R110, R111, R113) -/

namespace Sys2Proof.Machine

theorem State.avail_of_unbound {s : State} {c : Nat} (h : (s.slot c).bound = false) : s.avail c = false := by
  rw [State.avail, h, Bool.and_false]

/-- Clearing the bound bit of a slot that is not bound leaves every slot as it was. -/
theorem State.setSlot_unbound_self {s : State} {c : Nat} (h : (s.slot c).bound = false) :
    s.setSlot c { s.slot c with bound := false } = s := by
  rw [← h]
  exact State.setSlot_self s c

/-- Settles O19: an idle channel in range has its slot written, and a written slot reads back. -/
theorem bindWritesTheWholeSlot : Obligations.BindWritesTheWholeSlot := by
  unfold Obligations.BindWritesTheWholeSlot
  rintro s ch p ⟨-, hctx, -⟩ hch hidle
  exact ⟨_, execBind_of_idle p hch hidle, State.setSlot_slot_same _ (hctx ▸ hch),
    fun c hc => State.setSlot_slot_other _ hc, rfl⟩

/-- Settles O20: the channel number is BIND's first check. -/
theorem bindOutOfRangeRefused : Obligations.BindOutOfRangeRefused := by
  unfold Obligations.BindOutOfRangeRefused
  exact fun s ch p hge => execBind_of_ge p hge

/-- Settles O21: past the range check both commands look at the tracker before the slot. -/
theorem contextChangeInFlightFaults : Obligations.ContextChangeInFlightFaults := by
  unfold Obligations.ContextChangeInFlightFaults
  exact fun s ch p hch hactive => ⟨execBind_of_active p hch hactive, execUnbind_of_active hch hactive⟩

/-- Settles O22: the slot reads back unbound, and an unbound slot makes no context available. -/
theorem unbindRemovesTheContext : Obligations.UnbindRemovesTheContext := by
  unfold Obligations.UnbindRemovesTheContext
  rintro s ch ⟨-, hctx, -⟩ hch hidle
  have hunbound : ((s.setSlot ch.toNat { s.slot ch.toNat with bound := false }).slot ch.toNat).bound = false := by
    rw [State.setSlot_slot_same _ (hctx ▸ hch)]
  exact ⟨_, execUnbind_of_idle hch hidle, hunbound, State.avail_of_unbound hunbound,
    fun c hc => State.setSlot_slot_other _ hc, rfl⟩

/-- Settles O23: out of range UNBIND writes nothing; in range it clears a bit that is clear already. -/
theorem unbindOfNothingHasNoEffect : Obligations.UnbindOfNothingHasNoEffect := by
  unfold Obligations.UnbindOfNothingHasNoEffect
  rintro s ch (hge | ⟨hidle, hunbound⟩)
  · exact execUnbind_of_ge hge
  · rcases Nat.lt_or_ge ch.toNat s.numChannels with hch | hge
    · exact (execUnbind_of_idle hch hidle).trans
        (congrArg Host.Outcome.next (State.setSlot_unbound_self hunbound))
    · exact execUnbind_of_ge hge

end Sys2Proof.Machine
end

/-! # Proofs of the translate family: the entries of a byte sequence, a TRANSLATE's response, the driver loop -/

section
/-! ## The entries of a byte sequence (42_translate.md R131) -/

namespace Sys2Proof.Machine

/-- Entry j of a byte is that of its bit 7 - j. -/
theorem encodeByte_eq_map (b : Byte) (p : TimingProfile) :
    encodeByte b p = (List.range 8).map fun j => entryOf (b.getLsbD (7 - j)) p := rfl

theorem encodeByte_getElem? (b : Byte) (p : TimingProfile) {j : Nat} (hj : j < 8) :
    (encodeByte b p)[j]? = some (entryOf (b.getLsbD (7 - j)) p) := by
  simp [encodeByte_eq_map, hj]

theorem encodeBuffer_getElem? {bs : List Byte} {i j : Nat} {b : Byte} (p : TimingProfile) (hi : bs[i]? = some b)
    (hj : j < 8) : (encodeBuffer bs p)[8 * i + j]? = some (entryOf (b.getLsbD (7 - j)) p) := by
  induction bs generalizing i with
  | nil => simp at hi
  | cons c cs ih =>
    rw [encodeBuffer]
    cases i with
    | zero =>
      obtain rfl : c = b := by simpa using hi
      rw [Nat.mul_zero, Nat.zero_add, List.getElem?_append_left (by simpa using hj), encodeByte_getElem? c p hj]
    | succ i =>
      rw [show 8 * (i + 1) + j = (encodeByte c p).length + (8 * i + j) by rw [encodeByte_length]; omega,
        List.getElem?_append_right (Nat.le_add_right _ _), Nat.add_sub_cancel_left]
      exact ih (by simpa using hi)

/-- Settles O29, by induction on the sequence: each byte puts its eight entries before those of the rest. -/
theorem bufferEntriesMsbFirst : Obligations.BufferEntriesMsbFirst := by
  unfold Obligations.BufferEntriesMsbFirst
  exact fun bs p => ⟨encodeBuffer_length bs p, fun _ _ _ hi hj => encodeBuffer_getElem? p hi hj⟩

end Sys2Proof.Machine
end

section
/-! ## A TRANSLATE's response (42_translate.md R134 to R136 and section 2) -/

namespace Sys2Proof.Machine

/-- Settles O31: availability is the first check, and it answers at once. -/
theorem translateWithoutContextGivesZero : Obligations.TranslateWithoutContextGivesZero := by
  unfold Obligations.TranslateWithoutContextGivesZero
  intro s ch src len dst cap h
  rw [← State.avail_iff] at h
  exact execTranslate_of_unavailable (Bool.eq_false_iff.2 h) src len dst cap

/-- There is a byte to consume exactly when the capacity holds its entries and the source has one left (R134). -/
theorem consumedBytes_eq_zero_iff {len cap : Word} : consumedBytes len cap = 0 ↔ cap.toNat < 8 ∨ len = 0#32 := by
  rw [consumedBytes, Nat.min_eq_zero_iff, Nat.div_eq_zero_iff_lt (by decide), BitVec.toNat_eq]
  rfl

/-- Settles O32: there is no byte to consume, and the checks of availability and of n = 0 answer alike. -/
theorem translateWithoutRoomGivesZero : Obligations.TranslateWithoutRoomGivesZero := by
  unfold Obligations.TranslateWithoutRoomGivesZero
  intro s ch src len dst cap h
  exact execTranslate_of_consumes_nothing (consumedBytes_eq_zero_iff.2 h) ch src dst s

/-- The two words of a response can be read off: they are n and 8n for the n bytes consumed, where n is 0 without a
context and min(cap div 8, len) with one (R134 to R136). -/
theorem exec_translate_response {ch : Byte} {src len dst cap consumed produced : Word} {s t : State}
    (h : exec (.translate ch src len dst cap) s = .next t) (hr : t.response = s.response ++ [consumed, produced]) :
    ∃ n, consumed = countWord n ∧ produced = countWord (8 * n) ∧
      (n = consumedBytes len cap ∨ n = 0 ∧ ¬ s.avail ch.toNat = true) := by
  have words {n : Nat} (e : s.response ++ [countWord n, countWord (8 * n)] = s.response ++ [consumed, produced]) :
      consumed = countWord n ∧ produced = countWord (8 * n) := by
    simpa [eq_comm] using e
  rcases execTranslate_cases ch src len dst cap s with ⟨hzero, e⟩ | ⟨-, -, ⟨f, -, e⟩ | ⟨-, e⟩⟩ <;>
    (rw [exec, e] at h; cases h)
  · obtain ⟨hm, he⟩ := words (n := 0) hr
    exact ⟨0, hm, he, hzero.symm.imp Eq.symm fun ha => ⟨rfl, by simp [ha]⟩⟩
  · simp at hr
  · obtain ⟨hm, he⟩ := words hr
    exact ⟨_, hm, he, .inl rfl⟩

/-- Settles O35: the counts are n and 8n, and n is bounded by min(cap div 8, len), from which it differs only where the
context is unavailable. -/
theorem translateCountLaws : Obligations.TranslateCountLaws := by
  unfold Obligations.TranslateCountLaws
  intro s t ch src len dst cap consumed produced h hr
  rw [← State.avail_iff]
  obtain ⟨n, rfl, rfl, hn⟩ := exec_translate_response h hr
  have hlen := consumedBytes_le_len len cap
  have hcap := consumedBytes_mul_le_cap len cap
  have hle : n ≤ consumedBytes len cap := by omega
  have hbig : cap.toNat < memorySize := cap.isLt
  rw [BitVec.toNat_eq, countWord_toNat (n := n) (by omega), countWord_toNat (n := 8 * n) (by omega)]
  refine ⟨rfl, by omega, by omega, ?_⟩
  rcases hn with rfl | ⟨-, ha⟩
  · rw [consumedBytes]; omega
  · exact .inr (.inr ha)

end Sys2Proof.Machine
end

section
/-! ## TRANSLATE and the inter-frame reset time (42_translate.md R139) -/

namespace Sys2Proof.Machine

/-- A state with another reset time in the profile of a channel's slot. -/
def State.setReset (s : State) (c : Nat) (r : Tick) : State :=
  s.setSlot c { s.slot c with profile := { (s.slot c).profile with reset := r } }

/-- Entry words carry the four phase durations only (R63). -/
theorem entryWord_reset (b : Bool) (p : TimingProfile) (r : Tick) :
    entryWord b { p with reset := r } = entryWord b p := rfl

theorem sourceEntries_reset (p : TimingProfile) (r : Tick) (n src : Nat) (m : Memory) :
    sourceEntries { p with reset := r } n src m = sourceEntries p n src m := by
  simp only [sourceEntries, byteWords, entryWord_reset]

theorem translateEffect_setReset (ch : Byte) (src len dst cap : Word) (s : State) (r : Tick) :
    translateEffect ch src len dst cap (s.setReset ch.toNat r) = translateEffect ch src len dst cap s := by
  by_cases hc : ch.toNat < s.ctx.length
  · have hslot : (s.setReset ch.toNat r).slot ch.toNat =
        { s.slot ch.toNat with profile := { (s.slot ch.toNat).profile with reset := r } } :=
      State.setSlot_slot_same _ hc
    have havail : (s.setReset ch.toNat r).avail ch.toNat = s.avail ch.toNat := by
      rw [State.avail, hslot]; rfl
    simp only [translateEffect, havail, hslot, sourceEntries_reset]
    rfl
  · have hself : s.setReset ch.toNat r = s := by
      simp [State.setReset, State.setSlot, List.set_eq_of_length_le (Nat.not_lt.1 hc)]
    rw [hself]

/-- Settles O36: the effect is the same with another reset time, and no effect writes a slot. -/
theorem translateNeverReadsResetTime : Obligations.TranslateNeverReadsResetTime := by
  unfold Obligations.TranslateNeverReadsResetTime
  intro s ch src len dst cap r change
  have heff : translateEffect ch src len dst cap (change s) = translateEffect ch src len dst cap s :=
    translateEffect_setReset ch src len dst cap s r
  rw [exec_translate_of_effect heff, exec_translate_of_effect rfl]
  rfl

end Sys2Proof.Machine
end

section
/-! ## The driver loop of a transmission (42_translate.md R140 and section 3) -/

namespace Sys2Proof.Machine

/-- A call whose buffer is aligned, lies in host memory and keeps clear of the L source bytes at a. -/
def DriverCall.Clear (k : DriverCall) (a L : Nat) : Prop :=
  k.dst.toNat % 4 = 0 ∧ k.dst.toNat + 32 * (k.cap.toNat / 8) ≤ memorySize ∧
    (k.dst.toNat + 32 * (k.cap.toNat / 8) ≤ a ∨ a + L ≤ k.dst.toNat)

/-- The bytes a call consumes of those that remain behind the first j source bytes fit. -/
theorem DriverCall.Clear.rangesFit {k : DriverCall} {a L j : Nat} (hk : k.Clear a L) (hj : j ≤ L)
    (hfit : a + L ≤ memorySize) : RangesFit (a + j) k.dst.toNat (min (k.cap.toNat / 8) (L - j)) := by
  obtain ⟨halign, hdst, hsep⟩ := hk
  exact ⟨by omega, by omega, halign, by omega⟩

/-- One call that fits: the machine after the TRANSLATE, the cursor behind the bytes consumed, their entries taken. -/
theorem driverCall_of_fit {ch : Byte} {k : DriverCall} {d : DriverRun} (ha : d.state.avail ch.toNat = true)
    (hsrc : d.src < memorySize) (hleft : d.left < memorySize)
    (hfit : RangesFit d.src k.dst.toNat (min (k.cap.toNat / 8) d.left)) :
    let n := min (k.cap.toNat / 8) d.left
    let t := afterTranslate ch n d.src k.dst.toNat d.state
    driverCall ch k d =
      { state := t, src := d.src + n, left := d.left - n,
        entries := d.entries ++ t.mem.readWords k.dst.toNat (8 * n) } := by
  rw [driverCall, hostCall_fits ha hsrc hleft k.dst.isLt hfit]
  rfl

/-- The driver of the L source bytes at a, started on the state s, has handed on the encoding of the first j and stands
right behind them; its calls left the context, the faults and the source bytes as they were. -/
structure DriverAt (ch : Byte) (s : State) (a L j : Nat) (d : DriverRun) : Prop where
  le : j ≤ L
  entries : d.entries = (encodeBuffer (s.mem.readBytes a j) (s.slot ch.toNat).profile).map entryPack
  src : d.src = a + j
  left : d.left = L - j
  cfg : d.state.cfg = s.cfg
  ctx : d.state.ctx = s.ctx
  faults : d.state.faults = s.faults
  wf : d.state.mem.wf = true
  source : ∀ i, i < L → d.state.mem.read (a + i) = s.mem.read (a + i)

section
variable {ch : Byte} {s : State} {a L j : Nat} {d : DriverRun}

theorem DriverAt.start (ch : Byte) (a L : Nat) (hwf : s.mem.wf = true) :
    DriverAt ch s a L 0 { state := s, src := a, left := L, entries := [] } where
  le := Nat.zero_le L
  entries := rfl
  src := rfl
  left := rfl
  cfg := rfl
  ctx := rfl
  faults := rfl
  wf := hwf
  source := fun _ _ => rfl

theorem DriverAt.slot (h : DriverAt ch s a L j d) (c : Nat) : d.state.slot c = s.slot c := by
  rw [State.slot, h.ctx, State.slot]

theorem DriverAt.avail (h : DriverAt ch s a L j d) (c : Nat) : d.state.avail c = s.avail c := by
  rw [State.avail, h.slot, State.numChannels, h.cfg]; rfl

theorem DriverAt.readBytes (h : DriverAt ch s a L j d) {n : Nat} (hn : j + n ≤ L) :
    d.state.mem.readBytes (a + j) n = s.mem.readBytes (a + j) n :=
  Memory.readBytes_congr fun x hlo hhi => by
    simpa [show a + (x - a) = x by omega] using h.source (x - a) (by omega)

/-- A call made while a byte remains hands on the entries of as many bytes as its capacity allows. -/
theorem DriverAt.call (h : DriverAt ch s a L j d) (ha : s.avail ch.toNat = true) (hfit : a + L ≤ memorySize)
    (hL : L < memorySize) (hj : j < L) {k : DriverCall} (hk : k.Clear a L) :
    DriverAt ch s a L (j + min (k.cap.toNat / 8) (L - j)) (driverCall ch k d) := by
  have hranges : RangesFit d.src k.dst.toNat (min (k.cap.toNat / 8) d.left) := by
    rw [h.src, h.left]; exact hk.rangesFit hj.le hfit
  have hcall := driverCall_of_fit ((h.avail _).trans ha) (by rw [h.src]; omega) (by rw [h.left]; omega) hranges
  dsimp only at hcall
  rw [h.src, h.left] at hranges hcall
  obtain ⟨-, hdst, -, hsep⟩ := hranges
  obtain ⟨-, -, hclear⟩ := hk
  generalize hn : min (k.cap.toNat / 8) (L - j) = n at *
  rw [hcall]
  exact {
    le := by omega
    entries := by
      rw [afterTranslate_mem, translateBytes_readWords h.wf hdst hsep, h.slot, h.readBytes (by omega), h.entries,
        Memory.readBytes_append, encodeBuffer_append, List.map_append]
    src := Nat.add_assoc a j n
    left := by dsimp only; omega
    cfg := h.cfg
    ctx := h.ctx
    faults := h.faults
    wf := translateBytes_wf h.wf hdst
    source := fun i hi => (translateBytes_read_other (by omega)).trans (h.source i hi) }

/-- The loop hands on as many bytes as the capacities of its calls allow. -/
theorem DriverAt.loop (h : DriverAt ch s a L j d) (ha : s.avail ch.toNat = true) (hfit : a + L ≤ memorySize)
    (hL : L < memorySize) {ks : List DriverCall} (hks : ∀ k ∈ ks, k.Clear a L) :
    DriverAt ch s a L (min L (j + (ks.map fun k => k.cap.toNat / 8).sum)) (driverLoop ch ks d) := by
  induction ks generalizing j d with
  | nil => simpa [driverLoop, h.le] using h
  | cons k ks ih =>
    obtain ⟨hk, hks⟩ := List.forall_mem_cons.1 hks
    have hleft := h.left
    have hle := h.le
    rw [driverLoop, List.map_cons, List.sum_cons]
    split
    · rwa [show min L (j + (k.cap.toNat / 8 + _)) = j by omega]
    · have hrest := ih (h.call ha hfit hL (by omega) hk) hks
      rwa [show min L (j + min (k.cap.toNat / 8) (L - j) + (ks.map fun k => k.cap.toNat / 8).sum) =
        min L (j + (k.cap.toNat / 8 + (ks.map fun k => k.cap.toNat / 8).sum)) by omega] at hrest

end

/-- Settles O40: a driver that has handed on nothing stands at the start of the buffer, and each call moves it on. -/
theorem driverStreamsTheBuffer : Obligations.DriverStreamsTheBuffer := by
  unfold Obligations.DriverStreamsTheBuffer
  rintro ch ks s a L ⟨hwf, -, -⟩ hch hbound hfit hks
  have h := (DriverAt.start ch a.toNat L.toNat hwf).loop (State.avail_iff.2 ⟨hch, hbound⟩) hfit L.isLt hks
  rw [Nat.zero_add] at h
  exact ⟨h.entries, h.left, h.src, h.faults, h.ctx, h.source⟩

/-- As many calls as bytes, each with room for one, have room for all. -/
theorem length_le_sum_capacities {ks : List DriverCall} (h : ∀ k ∈ ks, 8 ≤ k.cap.toNat) :
    ks.length ≤ (ks.map fun k => k.cap.toNat / 8).sum := by
  have hone : ∀ c ∈ ks.map (fun k => k.cap.toNat / 8), 1 ≤ c :=
    List.forall_mem_map.2 fun k hk => Nat.div_pos (h k hk) (by decide)
  simpa using List.length_le_sum_of_one_le _ hone

/-- Settles O41: the capacities allow as many bytes as the buffer has, so the driver hands on all of it. -/
theorem driverLoopEnds : Obligations.DriverLoopEnds := by
  unfold Obligations.DriverLoopEnds
  intro ch ks s a L hinv hch hbound hfit hks hcalls
  obtain ⟨hentries, hleft, -⟩ := driverStreamsTheBuffer ch ks s a L hinv hch hbound hfit fun k hk => (hks k hk).2
  have hsum := length_le_sum_capacities fun k hk => (hks k hk).1
  rw [Nat.min_eq_left (hcalls.trans hsum)] at hentries hleft
  exact ⟨by rw [hleft, Nat.sub_self], hentries⟩

end Sys2Proof.Machine
end

/-! # Proofs of the exceptions family: data in flight, host writes, the two stops, the issuer, faulted commands -/

section
/-! ## How a step ends (60_exceptions.md R162, R168, R169, R170; 70_reset_and_hazards.md R190) -/

namespace Sys2Proof.Machine

/-- No meaning of a command ends in a stop. -/
theorem exec_completes (i : Instr) (s : State) : ∃ t, exec i s = .next t := by
  cases i with
  | resolve => exact ⟨_, rfl⟩
  | bind ch p => rcases execBind_cases ch p s with ⟨-, e⟩ | ⟨-, -, e⟩ | ⟨-, -, e⟩ <;> exact ⟨_, e⟩
  | unbind ch => rcases execUnbind_cases ch s with ⟨-, e⟩ | ⟨-, -, e⟩ | ⟨-, -, e⟩ <;> exact ⟨_, e⟩
  | readprof => exact ⟨_, rfl⟩
  | translate ch src len dst cap =>
    rcases execTranslate_cases ch src len dst cap s with ⟨-, e⟩ | ⟨-, -, ⟨_, -, e⟩ | ⟨-, e⟩⟩ <;> exact ⟨_, e⟩

/-- Settles O10: every case of every command's meaning is a next state. -/
theorem everyCommandCompletes : Obligations.EveryCommandCompletes := by
  unfold Obligations.EveryCommandCompletes
  exact exec_completes

theorem State.anyActive_iff {s : State} : s.anyActive = true ↔ ∃ t ∈ s.tx, t ≠ .idle := by
  simp [State.anyActive]

theorem powerOnReset_of_active {s : State} (h : s.anyActive = true) :
    powerOnReset s = .refused .resetDuringActivity := if_pos h

/-- An accepted interaction answers a next state, or is one of the two that stop the model. -/
theorem runInteraction_outcomes (a : Interaction) (s : State) :
    (∃ t, runInteraction a s = .next t) ∨
    (∃ ws, a = .command ws ∧ decode ws = .error .notWhole ∧ runInteraction a s = .fault .commandNotWhole) ∨
    (a = .powerOnReset ∧ s.anyActive = true ∧ runInteraction a s = .refused .resetDuringActivity) := by
  cases a with
  | command ws =>
    cases hd : decode ws with
    | ok i =>
      obtain ⟨t, ht⟩ := exec_completes i s
      exact .inl ⟨t, (runFrame_ok hd s).trans ht⟩
    | error e =>
      cases e with
      | illegalCommand h => exact .inl ⟨_, runFrame_illegal hd s⟩
      | notWhole => exact .inr (.inl ⟨ws, rfl, hd, runFrame_notWhole hd s⟩)
  | hostWrite => exact .inl ⟨_, rfl⟩
  | txBegin => exact .inl ⟨_, rfl⟩
  | txEnd => exact .inl ⟨_, rfl⟩
  | powerOnReset =>
    rcases powerOnReset_cases s with ⟨h, e⟩ | ⟨-, e⟩
    · exact .inr (.inr ⟨rfl, h, e⟩)
    · exact .inl ⟨_, e⟩

/-- A step answers a next state, or the head of the port is one of the two interactions that stop the model. -/
theorem step_outcomes (s : State) :
    (∃ t, step s = .next t) ∨
    (step s = .fault .commandNotWhole ∧
      ∃ a ws ps, s.port = { agent := a, act := .command ws } :: ps ∧ decode ws = .error .notWhole) ∨
    (step s = .refused .resetDuringActivity ∧
      ∃ a ps, s.port = { agent := a, act := .powerOnReset } :: ps ∧ s.anyActive = true) := by
  cases hport : s.port with
  | nil => exact .inl ⟨s, step_nil hport⟩
  | cons p ps =>
    obtain ⟨a, act⟩ := p
    rw [step_cons hport]
    rcases runInteraction_outcomes act (s.setPort ps) with hnext | ⟨ws, rfl, hd, e⟩ | ⟨rfl, hactive, e⟩
    · exact .inl hnext
    · exact .inr (.inl ⟨e, a, ws, ps, rfl, hd⟩)
    · exact .inr (.inr ⟨e, a, ps, rfl, hactive⟩)

/-- Settles O11: each stop is one of `step_outcomes`, and its interaction at the head of the port brings it about. -/
theorem onlyTwoStops : Obligations.OnlyTwoStops := by
  unfold Obligations.OnlyTwoStops
  refine fun s => ⟨fun f => ⟨fun h => ?_, ?_⟩, fun r => ⟨fun h => ?_, ?_⟩⟩
  · rcases step_outcomes s with ⟨t, e⟩ | ⟨e, hhead⟩ | ⟨e, -⟩ <;> rw [e] at h <;> cases h
    exact ⟨rfl, hhead⟩
  · rintro ⟨rfl, a, ws, ps, hport, hd⟩
    exact (step_cons hport).trans (runFrame_notWhole hd _)
  · rcases step_outcomes s with ⟨t, e⟩ | ⟨e, -⟩ | ⟨e, a, ps, hport, hactive⟩ <;> rw [e] at h <;> cases h
    exact ⟨rfl, a, ps, hport, State.anyActive_iff.1 hactive⟩
  · rintro ⟨rfl, a, ps, hport, hactive⟩
    exact (step_cons hport).trans (powerOnReset_of_active (s := s.setPort ps) (State.anyActive_iff.2 hactive))

end Sys2Proof.Machine
end

section
/-! ## The issuer, and what a faulted command leaves (60_exceptions.md R161, R164, R165, R168) -/

namespace Sys2Proof.Machine

theorem mapNext_mapNext (f g : State → State) (o : Host.Outcome State Fault Refusal) :
    mapNext g (mapNext f o) = mapNext (fun t => g (f t)) o := by
  cases o <;> rfl

/-- Settles O9: the interaction at the head of the port runs without its agent, and without what is pending behind it. -/
theorem issuerIsNeverAsked : Obligations.IssuerIsNeverAsked := by
  unfold Obligations.IssuerIsNeverAsked
  intro f s rename
  cases hport : s.port with
  | nil =>
    have hrenamed : (rename s).port = [] := congrArg (List.map _) hport
    rw [step_nil hrenamed, step_nil hport, mapNext_next]
  | cons p ps =>
    have hrenamed : (rename s).port = { p with agent := f p.agent } :: (rename (s.setPort ps)).port :=
      congrArg (List.map _) hport
    rw [step_cons hrenamed, step_cons hport]
    calc runInteraction p.act (s.setPort (rename (s.setPort ps)).port)
        = mapNext (fun t => rename (t.setPort ps)) (runInteraction p.act s) := runInteraction_setPort _ _ _
      _ = mapNext rename (runInteraction p.act (s.setPort ps)) := by
          rw [runInteraction_setPort, mapNext_mapNext]

/-- Settles O56: of all that a command can do, only a fault adds to the record of faults and only a refusal to that of
refusals, and each of these does nothing else. -/
theorem faultedCommandLeavesOnlyItsRecord : Obligations.FaultedCommandLeavesOnlyItsRecord := by
  unfold Obligations.FaultedCommandLeavesOnlyItsRecord
  intro i s t h
  rcases exec_cases h with ⟨ws, rfl⟩ | ⟨f, rfl⟩ | ⟨r, rfl⟩ | ⟨c, v, rfl, -⟩ | rfl | ⟨_, _, _, _, _, -, -, -, rfl⟩
  case inr.inl => exact ⟨fun _ => ⟨f, rfl⟩, absurd rfl, absurd rfl⟩
  case inr.inr.inl => exact ⟨absurd rfl, fun _ => ⟨r, rfl⟩, absurd rfl⟩
  all_goals exact ⟨absurd rfl, absurd rfl, fun _ => ⟨rfl, rfl⟩⟩

end Sys2Proof.Machine
end

section
/-! ## Host writes (60_exceptions.md R170, 70_reset_and_hazards.md R193) -/

namespace Sys2Proof.Machine

/-- No channel covers an address exactly when a host may write it. -/
theorem State.coveringChannels_eq_nil_iff_freeAddress {s : State} {a : Word} :
    s.coveringChannels a = [] ↔ s.freeAddress a := by
  simp only [State.coveringChannels_eq_nil, ← Bool.not_eq_true, Tx.covers_iff, State.freeAddress, not_exists, not_and]
  exact ⟨fun h c base len hc => h c hc base len, fun h c hc base len => h c base len hc⟩

/-- Settles O45: no channel covers a free address, so the byte is stored. -/
theorem hostWriteStoresTheByte : Obligations.HostWriteStoresTheByte := by
  unfold Obligations.HostWriteStoresTheByte
  rintro s a addr b ps ⟨hwf, -, -⟩ hport hfree
  have hnone : (s.setPort ps).coveringChannels addr = [] := State.coveringChannels_eq_nil_iff_freeAddress.2 hfree
  have hstep : step s = .next ((s.setPort ps).setMem (s.mem.write addr.toNat b)) :=
    (step_cons hport).trans (congrArg Host.Outcome.next (hostWrite_of_free b hnone))
  exact ⟨_, hstep, Memory.read_write_same b hwf, fun x hx => Memory.read_write_other b hx, rfl⟩

/-- Settles O46: channel c is one of the covering channels, each of which has its hazard recorded. -/
theorem hostWriteInFlightFaults : Obligations.HostWriteInFlightFaults := by
  unfold Obligations.HostWriteInFlightFaults
  intro s a addr b ps c base len hport hc hactive hlo hhi
  have hmem : c ∈ (s.setPort ps).coveringChannels addr :=
    State.mem_coveringChannels.2 ⟨hc, Tx.covers_iff.2 ⟨base, len, hactive, hlo, hhi⟩⟩
  refine ⟨_, (step_cons hport).trans
    (congrArg Host.Outcome.next (hostWrite_of_covered b (List.ne_nil_of_mem hmem))), ?_, rfl⟩
  exact List.mem_append_right _ (List.mem_map_of_mem hmem)

end Sys2Proof.Machine
end

section
/-! ## Data in flight (60_exceptions.md R170, 70_reset_and_hazards.md R193, R194) -/

namespace Sys2Proof.Machine

/-! ### The context slot of a channel in flight -/

section
variable {s t : State} {c : Nat}

/-- A command writes the slot of an idle channel only. -/
theorem exec_slot_of_active {i : Instr} (hactive : s.tracker c ≠ .idle) (h : exec i s = .next t) :
    t.slot c = s.slot c := by
  rcases exec_cases h with ⟨_, rfl⟩ | ⟨_, rfl⟩ | ⟨_, rfl⟩ | ⟨k, v, rfl, hidle, -⟩ | rfl | ⟨_, _, _, _, _, -, -, -, rfl⟩
  case inr.inr.inr.inl =>
    have hck : c ≠ k := fun e => hactive (e ▸ hidle)
    exact State.setSlot_slot_other v hck
  all_goals rfl

/-- No other interaction writes a slot, but for a power-on reset, which no channel in flight meets. -/
theorem runInteraction_slot_of_active {a : Interaction} (hactive : s.tracker c ≠ .idle)
    (h : runInteraction a s = .next t) : t.slot c = s.slot c := by
  rcases runInteraction_cases h with ⟨_, _, -, -, he⟩ | ⟨_, rfl⟩ | ⟨_, _, -, -, rfl⟩ | ⟨_, rfl⟩ | ⟨_, _, rfl⟩ |
    ⟨-, hnone, -⟩
  case inl => exact exec_slot_of_active hactive he
  case inr.inr.inr.inr.inr => exact absurd (State.anyActive_eq_false.1 hnone c) hactive
  all_goals rfl

end

/-! ### The bytes a step changes -/

/-- A frame of words is a TRANSLATE whose entry buffer, for the bytes it consumes, holds an address. -/
def WritesEntryAt (ws : List Word) (x : Nat) : Prop :=
  ∃ ch src len dst cap, decode ws = .ok (.translate ch src len dst cap) ∧
    dst.toNat ≤ x ∧ x < dst.toNat + 32 * consumedBytes len cap

section
variable {s t : State} {x : Nat}

/-- A command changes a byte only if it is a TRANSLATE with the byte in its entry buffer. -/
theorem writesEntryAt_of_exec {ws : List Word} {i : Instr} (hd : decode ws = .ok i) (h : exec i s = .next t)
    (hx : t.mem.read x ≠ s.mem.read x) : WritesEntryAt ws x := by
  rcases exec_cases h with ⟨_, rfl⟩ | ⟨_, rfl⟩ | ⟨_, rfl⟩ | ⟨_, _, rfl, -⟩ | rfl | ⟨ch, src, len, dst, cap, rfl, -, -, rfl⟩
  case inr.inr.inr.inr.inr =>
    have hin : ¬ (x < dst.toNat ∨ dst.toNat + 32 * consumedBytes len cap ≤ x) :=
      fun hout => hx (translateBytes_read_other hout)
    exact ⟨ch, src, len, dst, cap, hd, by omega, by omega⟩
  all_goals exact absurd rfl hx

/-- An interaction changes a byte only if it is a TRANSLATE with the byte in its entry buffer, or a host write to the byte,
which then is in no active source range. -/
theorem runInteraction_changes {a : Interaction} (h : runInteraction a s = .next t)
    (hx : t.mem.read x ≠ s.mem.read x) :
    (∃ ws, a = .command ws ∧ WritesEntryAt ws x) ∨ ∃ addr : Word, addr.toNat = x ∧ s.freeAddress addr := by
  rcases runInteraction_cases h with ⟨ws, i, rfl, hd, he⟩ | ⟨_, rfl⟩ | ⟨addr, b, -, hnone, rfl⟩ | ⟨_, rfl⟩ | ⟨_, _, rfl⟩ |
    ⟨-, -, rfl⟩
  case inl => exact .inl ⟨ws, rfl, writesEntryAt_of_exec hd he hx⟩
  case inr.inr.inl =>
    have haddr : addr.toNat = x := by
      by_contra hne
      exact hx (Memory.read_write_other b (Ne.symm hne))
    exact .inr ⟨addr, haddr, State.coveringChannels_eq_nil_iff_freeAddress.1 hnone⟩
  all_goals exact absurd rfl hx

end

/-- Settles O48: BIND, UNBIND and power-on reset leave a channel in flight alone, and a host write to its source range is
not stored, which leaves the entries of a TRANSLATE. -/
theorem inFlightDataIsStable : Obligations.InFlightDataIsStable := by
  unfold Obligations.InFlightDataIsStable
  rintro s t c base len ⟨-, -, htx⟩ h hactive
  rcases step_cases h with ⟨-, rfl⟩ | ⟨⟨a, act⟩, ps, hport, hrun⟩
  · exact ⟨rfl, fun x _ _ hx => absurd rfl hx⟩
  · have hbusy : (s.setPort ps).tracker c ≠ .idle := by simp [hactive]
    refine ⟨runInteraction_slot_of_active (s := s.setPort ps) hbusy hrun, fun x hlo hhi hx => ?_⟩
    rcases runInteraction_changes (s := s.setPort ps) hrun hx with
      ⟨ws, rfl, ch, src, n, dst, cap, hd, hwrites⟩ | ⟨addr, rfl, hfree⟩
    · exact ⟨a, ws, ps, ch, src, n, dst, cap, hport, hd, hwrites⟩
    · have hc : c < s.numChannels := htx ▸ State.tracker_active_lt hactive
      exact absurd ⟨hlo, hhi⟩ (hfree c base len hc hactive)

end Sys2Proof.Machine
end
